-- ==== Sys2Proof/Word.lean ====
section
/-! DEFINITION. The widths of the block's values (00_scope.md R4, R6; 30_encoding.md R48). -/

namespace Sys2Proof

/-- Four bits: a register index `x` or `y`, a sprite height `n`, a key number (R48, R19). -/
abbrev Nibble := BitVec 4

/-- Eight bits: a V register, a timer, a byte of memory, an immediate `nn` (R4, R48). -/
abbrev Byte := BitVec 8

/-- Twelve bits: the address field `nnn` of an instruction word (R48, R49). -/
abbrev Addr := BitVec 12

/-- Sixteen bits: an instruction word, `pc`, `I`, a stack entry (R4, R47). -/
abbrev Word := BitVec 16

end Sys2Proof
end

