-- ==== Sys2Proof/Config.lean ====
section
/-! DEFINITION. The parameters of 00_scope.md R4 that a model takes as arguments, and the values the spec leaves free
(93_implementation_defined.md items 4 and 5). The default of every parameter is in Machine/Defaults.lean. -/

namespace Sys2Proof

/-- `ADDR_POLICY`: what an access address above 0xFFF does (R31, D2). -/
inductive AddrPolicy where
  | fault
  | wrap12
  deriving DecidableEq, Repr

/-- `FONT_WRITE_POLICY`: what a data write to 0x000–0x04F does (R32, D14). -/
inductive FontWritePolicy where
  | fault
  | allow
  deriving DecidableEq, Repr

/-- `LOW_FETCH_POLICY`: what a fetch below 0x200 does (R40, D15). -/
inductive LowFetchPolicy where
  | fault
  | allow
  deriving DecidableEq, Repr

/-- `KEY_POLICY`: what a key number above 0xF does (R38, D9). -/
inductive KeyPolicy where
  | fault
  | lowNibble
  deriving DecidableEq, Repr

/-- A machine's fixed parameters (R4). `font` is `FONT`: sixteen glyphs of five bytes (R26). -/
structure Config where
  addrPolicy      : AddrPolicy
  fontWritePolicy : FontWritePolicy
  lowFetchPolicy  : LowFetchPolicy
  keyPolicy       : KeyPolicy
  stackDepth      : Nat
  font            : Vector (Vector Byte 5) 16
  deriving DecidableEq, Repr

/-- FREE VALUE (log 1): the random byte of the draw numbered `n` (R80, R108: any byte). -/
opaque Config.randomByte (n : Nat) : Byte

/-- FREE VALUE (log 2): which of several pressed keys the draw numbered `n` takes, modulo their number (R38, D10). -/
opaque Config.keyDraw (n : Nat) : Nat

end Sys2Proof
end

