-- ==== Sys2Proof/Syntax.lean ====
section
/-! DEFINITION. The 34 instructions of 30_encoding.md R50, one constructor per row of spec/opcode_table.json, in the
table's order. The operands are the fields of R48 and carry their widths, so every term is an instruction (R49, R53). -/

namespace Sys2Proof

/-- An instruction, named by its row's id (R54); the pattern stands beside it. -/
inductive Instr where
  /-- `00E0` (R58) -/
  | cls
  /-- `00EE` (R60) -/
  | ret
  /-- `1nnn` (R61) -/
  | jp (nnn : Addr)
  /-- `2nnn` (R62) -/
  | call (nnn : Addr)
  /-- `3xnn` (R63) -/
  | seByte (x : Nibble) (nn : Byte)
  /-- `4xnn` (R64) -/
  | sneByte (x : Nibble) (nn : Byte)
  /-- `5xy0` (R65) -/
  | seReg (x y : Nibble)
  /-- `6xnn` (R69) -/
  | ldByte (x : Nibble) (nn : Byte)
  /-- `7xnn` (R70) -/
  | addByte (x : Nibble) (nn : Byte)
  /-- `8xy0` (R71) -/
  | ldReg (x y : Nibble)
  /-- `8xy1` (R72) -/
  | orReg (x y : Nibble)
  /-- `8xy2` (R73) -/
  | andReg (x y : Nibble)
  /-- `8xy3` (R74) -/
  | xorReg (x y : Nibble)
  /-- `8xy4` (R75) -/
  | addReg (x y : Nibble)
  /-- `8xy5` (R76) -/
  | sub (x y : Nibble)
  /-- `8xy6` (R77) -/
  | shr (x y : Nibble)
  /-- `8xy7` (R78) -/
  | subn (x y : Nibble)
  /-- `8xyE` (R79); `y` is encoded and not read -/
  | shl (x y : Nibble)
  /-- `9xy0` (R66) -/
  | sneReg (x y : Nibble)
  /-- `Annn` (R81) -/
  | ldI (nnn : Addr)
  /-- `Bnnn` (R67) -/
  | jpV0 (nnn : Addr)
  /-- `Cxnn` (R80) -/
  | rnd (x : Nibble) (nn : Byte)
  /-- `Dxyn` (R59) -/
  | drw (x y n : Nibble)
  /-- `Ex9E` (R87) -/
  | skp (x : Nibble)
  /-- `ExA1` (R88) -/
  | sknp (x : Nibble)
  /-- `Fx07` (R90) -/
  | ldVxDt (x : Nibble)
  /-- `Fx0A` (R89) -/
  | ldVxK (x : Nibble)
  /-- `Fx15` (R91) -/
  | ldDtVx (x : Nibble)
  /-- `Fx18` (R92) -/
  | ldStVx (x : Nibble)
  /-- `Fx29` (R83) -/
  | ldFVx (x : Nibble)
  /-- `Fx33` (R84) -/
  | ldBVx (x : Nibble)
  /-- `Fx55` (R85) -/
  | ldMemVx (x : Nibble)
  /-- `Fx65` (R86) -/
  | ldVxMem (x : Nibble)
  /-- `Fx1E` (R82) -/
  | addIVx (x : Nibble)
  deriving DecidableEq, Repr

/-- The `mnemonic` key of the instruction's row of spec/opcode_table.json (R54). -/
def Instr.mnemonic : Instr → String
  | .cls => "CLS"
  | .ret => "RET"
  | .jp _ => "JP"
  | .call _ => "CALL"
  | .seByte _ _ => "SE_BYTE"
  | .sneByte _ _ => "SNE_BYTE"
  | .seReg _ _ => "SE_REG"
  | .ldByte _ _ => "LD_BYTE"
  | .addByte _ _ => "ADD_BYTE"
  | .ldReg _ _ => "LD_REG"
  | .orReg _ _ => "OR"
  | .andReg _ _ => "AND"
  | .xorReg _ _ => "XOR"
  | .addReg _ _ => "ADD_REG"
  | .sub _ _ => "SUB"
  | .shr _ _ => "SHR"
  | .subn _ _ => "SUBN"
  | .shl _ _ => "SHL"
  | .sneReg _ _ => "SNE_REG"
  | .ldI _ => "LD_I"
  | .jpV0 _ => "JP_V0"
  | .rnd _ _ => "RND"
  | .drw _ _ _ => "DRW"
  | .skp _ => "SKP"
  | .sknp _ => "SKNP"
  | .ldVxDt _ => "LD_VX_DT"
  | .ldVxK _ => "LD_VX_K"
  | .ldDtVx _ => "LD_DT_VX"
  | .ldStVx _ => "LD_ST_VX"
  | .ldFVx _ => "LD_F_VX"
  | .ldBVx _ => "LD_B_VX"
  | .ldMemVx _ => "LD_MEM_VX"
  | .ldVxMem _ => "LD_VX_MEM"
  | .addIVx _ => "ADD_I_VX"

end Sys2Proof
end

