-- ==== Sys2Proof/WellFormed.lean ====
section
/-! DEFINITION. The well-formedness checks of the data the block is given: an instruction word (30_encoding.md R52), a
configuration (20_memory.md R26) and a ROM image (70_reset_and_hazards.md R117). A term of `Instr` needs none: its operand
types carry the field widths of R48 and every value of every field is an instruction (R53). -/

namespace Sys2Proof

/-- R52: whether a word is an instruction, by the table of illegal encodings; digits from bit 15 down. -/
def legalWord (w : Word) : Bool :=
  match w.toNat / 4096 with
  | 0x0 => w.toNat = 0x00E0 || w.toNat = 0x00EE
  | 0x5 => w.toNat % 16 = 0
  | 0x8 => !([8, 9, 0xA, 0xB, 0xC, 0xD, 0xF].contains (w.toNat % 16))
  | 0x9 => w.toNat % 16 = 0
  | 0xE => [0x9E, 0xA1].contains (w.toNat % 256)
  | 0xF => [0x07, 0x0A, 0x15, 0x18, 0x1E, 0x29, 0x33, 0x55, 0x65].contains (w.toNat % 256)
  | _ => true

/-- R26: the one glyph the source fixes is glyph A, at 50..54 (R27). The other fifteen are the parameter's. -/
def Config.wellFormed (c : Config) : Bool :=
  c.font[0xA] == #v[0xF0, 0x90, 0xF0, 0x90, 0x90]

/-- R117: an image of 0 to 3584 bytes is accepted. -/
def romFits (rom : List Byte) : Bool :=
  rom.length ≤ 3584

end Sys2Proof
end

