-- ==== Sys2Proof/Decode.lean ====
section
/-! DEFINITION. Fields, the opcode map, the decoder and the encoder of 30_encoding.md R47–R53. -/

namespace Sys2Proof

/-- `word[15:12]` (R48). -/
def opOf (w : Word) : Nibble := w.extractLsb' 12 4
/-- `word[11:8]` (R48). -/
def xOf (w : Word) : Nibble := w.extractLsb' 8 4
/-- `word[7:4]` (R48). -/
def yOf (w : Word) : Nibble := w.extractLsb' 4 4
/-- `word[3:0]` (R48). -/
def nOf (w : Word) : Nibble := w.extractLsb' 0 4
/-- `word[7:0]` (R48). -/
def nnOf (w : Word) : Byte := w.extractLsb' 0 8
/-- `word[11:0]` (R48). -/
def nnnOf (w : Word) : Addr := w.extractLsb' 0 12

/-- A word written as four hexadecimal digits, bit 15 first (R6). -/
def nibbles (a b c d : Nibble) : Word := a ++ b ++ c ++ d
/-- A word written as two digits and a byte. -/
def nibByte (a b : Nibble) (d : Byte) : Word := a ++ b ++ d
/-- A word written as one digit and a 12-bit address. -/
def nibAddr (a : Nibble) (d : Addr) : Word := a ++ d

/-- R51: the decoder of one word, `none` for every illegal word of R52. -/
def decodeWord (w : Word) : Option Instr :=
  match opOf w with
  | 0x0#4 => if w = 0x00E0#16 then some .cls else if w = 0x00EE#16 then some .ret else none
  | 0x1#4 => some (.jp (nnnOf w))
  | 0x2#4 => some (.call (nnnOf w))
  | 0x3#4 => some (.seByte (xOf w) (nnOf w))
  | 0x4#4 => some (.sneByte (xOf w) (nnOf w))
  | 0x5#4 => if nOf w = 0x0#4 then some (.seReg (xOf w) (yOf w)) else none
  | 0x6#4 => some (.ldByte (xOf w) (nnOf w))
  | 0x7#4 => some (.addByte (xOf w) (nnOf w))
  | 0x8#4 =>
    match nOf w with
    | 0x0#4 => some (.ldReg (xOf w) (yOf w))
    | 0x1#4 => some (.orReg (xOf w) (yOf w))
    | 0x2#4 => some (.andReg (xOf w) (yOf w))
    | 0x3#4 => some (.xorReg (xOf w) (yOf w))
    | 0x4#4 => some (.addReg (xOf w) (yOf w))
    | 0x5#4 => some (.sub (xOf w) (yOf w))
    | 0x6#4 => some (.shr (xOf w) (yOf w))
    | 0x7#4 => some (.subn (xOf w) (yOf w))
    | 0xE#4 => some (.shl (xOf w) (yOf w))
    | _ => none
  | 0x9#4 => if nOf w = 0x0#4 then some (.sneReg (xOf w) (yOf w)) else none
  | 0xA#4 => some (.ldI (nnnOf w))
  | 0xB#4 => some (.jpV0 (nnnOf w))
  | 0xC#4 => some (.rnd (xOf w) (nnOf w))
  | 0xD#4 => some (.drw (xOf w) (yOf w) (nOf w))
  | 0xE#4 =>
    match nnOf w with
    | 0x9E#8 => some (.skp (xOf w))
    | 0xA1#8 => some (.sknp (xOf w))
    | _ => none
  | _ => -- 0xF, the one value left
    match nnOf w with
    | 0x07#8 => some (.ldVxDt (xOf w))
    | 0x0A#8 => some (.ldVxK (xOf w))
    | 0x15#8 => some (.ldDtVx (xOf w))
    | 0x18#8 => some (.ldStVx (xOf w))
    | 0x1E#8 => some (.addIVx (xOf w))
    | 0x29#8 => some (.ldFVx (xOf w))
    | 0x33#8 => some (.ldBVx (xOf w))
    | 0x55#8 => some (.ldMemVx (xOf w))
    | 0x65#8 => some (.ldVxMem (xOf w))
    | _ => none

/-- Why bytes are not an instruction. -/
inductive DecodeError where
  /-- The word matches no row of R50 (R52). -/
  | unrecognizedOpcode (word : Word)
  /-- Fewer than the two bytes of an instruction (R47); a fetch always has two. -/
  | truncated
  deriving DecidableEq, Repr

/-- R47: the big-endian word of two bytes, the byte at the lower address first. -/
def wordOfBytes (hi lo : Byte) : Word := hi ++ lo

/-- The decoder on bytes as they lie in memory, with the bytes left over: total, refusing by name. -/
def decode : List Byte → Except DecodeError (Instr × List Byte)
  | hi :: lo :: rest =>
    match decodeWord (wordOfBytes hi lo) with
    | some i => .ok (i, rest)
    | none => .error (.unrecognizedOpcode (wordOfBytes hi lo))
  | _ => .error .truncated

/-- The word of an instruction, from the patterns of R50. -/
def encode : Instr → Word
  | .cls => nibbles 0x0 0x0 0xE 0x0
  | .ret => nibbles 0x0 0x0 0xE 0xE
  | .jp nnn => nibAddr 0x1 nnn
  | .call nnn => nibAddr 0x2 nnn
  | .seByte x nn => nibByte 0x3 x nn
  | .sneByte x nn => nibByte 0x4 x nn
  | .seReg x y => nibbles 0x5 x y 0x0
  | .ldByte x nn => nibByte 0x6 x nn
  | .addByte x nn => nibByte 0x7 x nn
  | .ldReg x y => nibbles 0x8 x y 0x0
  | .orReg x y => nibbles 0x8 x y 0x1
  | .andReg x y => nibbles 0x8 x y 0x2
  | .xorReg x y => nibbles 0x8 x y 0x3
  | .addReg x y => nibbles 0x8 x y 0x4
  | .sub x y => nibbles 0x8 x y 0x5
  | .shr x y => nibbles 0x8 x y 0x6
  | .subn x y => nibbles 0x8 x y 0x7
  | .shl x y => nibbles 0x8 x y 0xE
  | .sneReg x y => nibbles 0x9 x y 0x0
  | .ldI nnn => nibAddr 0xA nnn
  | .jpV0 nnn => nibAddr 0xB nnn
  | .rnd x nn => nibByte 0xC x nn
  | .drw x y n => nibbles 0xD x y n
  | .skp x => nibByte 0xE x 0x9E
  | .sknp x => nibByte 0xE x 0xA1
  | .ldVxDt x => nibByte 0xF x 0x07
  | .ldVxK x => nibByte 0xF x 0x0A
  | .ldDtVx x => nibByte 0xF x 0x15
  | .ldStVx x => nibByte 0xF x 0x18
  | .ldFVx x => nibByte 0xF x 0x29
  | .ldBVx x => nibByte 0xF x 0x33
  | .ldMemVx x => nibByte 0xF x 0x55
  | .ldVxMem x => nibByte 0xF x 0x65
  | .addIVx x => nibByte 0xF x 0x1E

/-- The two bytes of a word, most significant first (R28, R47). -/
def bytesOfWord (w : Word) : List Byte := [w.extractLsb' 8 8, w.extractLsb' 0 8]

/-- The word that an opcode-table row's bits stand for: one 16-bit word, bits above `nbits` zero. -/
def tableWord (nbits w : Nat) : Word := BitVec.ofNat 16 (w % 2 ^ nbits)

/-- What the decoder reads from an instruction whose bits, numbered as the opcode table numbers them, are `w`. -/
def decodeTableWord (nbits w : Nat) : Option Instr :=
  match decode (bytesOfWord (tableWord nbits w)) with
  | .ok (i, _) => some i
  | .error _ => none

/-- A row of the opcode map of R50. -/
structure OpcodeRow where
  mnemonic : String
  matchBits : Word
  mask : Word
  deriving DecidableEq, Repr

/-- R50: a word is the instruction of a row when `word & mask = match`. -/
def OpcodeRow.matchesWord (r : OpcodeRow) (w : Word) : Bool := w &&& r.mask == r.matchBits

/-- The opcode map of R50, in its order: rows 1–19 and then rows 20–34. -/
def opcodeTable : List OpcodeRow :=
  [⟨"CLS", 0x00E0, 0xFFFF⟩, ⟨"RET", 0x00EE, 0xFFFF⟩, ⟨"JP", 0x1000, 0xF000⟩, ⟨"CALL", 0x2000, 0xF000⟩,
   ⟨"SE_BYTE", 0x3000, 0xF000⟩, ⟨"SNE_BYTE", 0x4000, 0xF000⟩, ⟨"SE_REG", 0x5000, 0xF00F⟩,
   ⟨"LD_BYTE", 0x6000, 0xF000⟩, ⟨"ADD_BYTE", 0x7000, 0xF000⟩] ++
  [⟨"LD_REG", 0x8000, 0xF00F⟩, ⟨"OR", 0x8001, 0xF00F⟩, ⟨"AND", 0x8002, 0xF00F⟩, ⟨"XOR", 0x8003, 0xF00F⟩,
   ⟨"ADD_REG", 0x8004, 0xF00F⟩, ⟨"SUB", 0x8005, 0xF00F⟩, ⟨"SHR", 0x8006, 0xF00F⟩, ⟨"SUBN", 0x8007, 0xF00F⟩,
   ⟨"SHL", 0x800E, 0xF00F⟩, ⟨"SNE_REG", 0x9000, 0xF00F⟩] ++
  [⟨"LD_I", 0xA000, 0xF000⟩, ⟨"JP_V0", 0xB000, 0xF000⟩, ⟨"RND", 0xC000, 0xF000⟩, ⟨"DRW", 0xD000, 0xF000⟩,
   ⟨"SKP", 0xE09E, 0xF0FF⟩, ⟨"SKNP", 0xE0A1, 0xF0FF⟩] ++
  [⟨"LD_VX_DT", 0xF007, 0xF0FF⟩, ⟨"LD_VX_K", 0xF00A, 0xF0FF⟩, ⟨"LD_DT_VX", 0xF015, 0xF0FF⟩,
   ⟨"LD_ST_VX", 0xF018, 0xF0FF⟩, ⟨"LD_F_VX", 0xF029, 0xF0FF⟩, ⟨"LD_B_VX", 0xF033, 0xF0FF⟩,
   ⟨"LD_MEM_VX", 0xF055, 0xF0FF⟩, ⟨"LD_VX_MEM", 0xF065, 0xF0FF⟩, ⟨"ADD_I_VX", 0xF01E, 0xF0FF⟩]

end Sys2Proof
end

