-- ==== Sys2Proof/Machine/Defaults.lean ====
section
/-! DEFINITION. The constants and the default parameter values of 00_scope.md R4, and the default font of 20_memory.md R26. -/

namespace Sys2Proof

/-- `MEM_SIZE` (R4, R24). -/
def memSize : Nat := 4096

/-- `PROGRAM_START` (R4): the ROM's place and the value of `pc` at reset. -/
def programStart : Nat := 0x200

/-- The font occupies 0x000–0x04F (R25, R26). -/
def fontBytes : Nat := 80

/-- `FONT`'s default (R26). Glyph A is the source's (§8); the others are PRESUMED by the spec (D13, log 5). -/
def Config.defaultFont : Vector (Vector Byte 5) 16 :=
  #v[#v[0xF0, 0x90, 0x90, 0x90, 0xF0], #v[0x20, 0x60, 0x20, 0x20, 0x70],
     #v[0xF0, 0x10, 0xF0, 0x80, 0xF0], #v[0xF0, 0x10, 0xF0, 0x10, 0xF0],
     #v[0x90, 0x90, 0xF0, 0x10, 0x10], #v[0xF0, 0x80, 0xF0, 0x10, 0xF0],
     #v[0xF0, 0x80, 0xF0, 0x90, 0xF0], #v[0xF0, 0x10, 0x20, 0x40, 0x40],
     #v[0xF0, 0x90, 0xF0, 0x90, 0xF0], #v[0xF0, 0x90, 0xF0, 0x10, 0xF0],
     #v[0xF0, 0x90, 0xF0, 0x90, 0x90], #v[0xE0, 0x90, 0xE0, 0x90, 0xE0],
     #v[0xF0, 0x80, 0x80, 0x80, 0xF0], #v[0xE0, 0x90, 0x90, 0x90, 0xE0],
     #v[0xF0, 0x80, 0xF0, 0x80, 0xF0], #v[0xF0, 0x80, 0xF0, 0x80, 0x80]]

/-- The default of every parameter (R4): what 95_test_vectors.md assumes. -/
def Config.default : Config where
  addrPolicy := .fault
  fontWritePolicy := .fault
  lowFetchPolicy := .fault
  keyPolicy := .fault
  stackDepth := 16
  font := Config.defaultFont

end Sys2Proof
end

