-- ==== Sys2Proof/Machine/State.lean ====
section
/-! DEFINITION. The block's state (10_state.md R10), the fatal errors it can be halted by (60_exceptions.md R93), the host's
interactions with it (R113), and its state after reset (R23, R115). -/

namespace Sys2Proof.Machine

/-- Memory `M` (R16, R24): the cells whose byte differs from the reset contents, addresses strictly rising
(`Memory.wf`, in Machine/Ops.lean). -/
abbrev Memory := List Host.Cell

/-- The display surface (R17), column first as the spec writes `disp[x][y]`: `true` is set. -/
abbrev Surface := Vector (Vector Bool 32) 64

/-- The kinds of fatal error (R93). -/
inductive ErrorKind where
  | unrecognizedOpcode
  | stackUnderflow
  | stackOverflow
  | addressOutOfRange
  | fontWrite
  | invalidKey
  | fetchOutsideProgram
  deriving DecidableEq, Repr

/-- The error record of R93. -/
structure ErrorRecord where
  kind  : ErrorKind
  pc    : Word
  word  : Option Word
  addr  : Option Nat
  value : Option Byte
  deriving DecidableEq, Repr

/-- A fatal condition as the operation that meets it knows it: the record of R93 without `pc` and `word`. -/
inductive Cause where
  | unrecognizedOpcode
  | stackUnderflow
  | stackOverflow
  | addressOutOfRange (ea : Nat)
  | fontWrite (a : Nat)
  | invalidKey (v : Byte)
  | fetchOutsideProgram (a : Nat)
  deriving DecidableEq, Repr

/-- The run status (R20). -/
inductive Status where
  | running
  | halted (err : ErrorRecord)
  deriving DecidableEq, Repr

/-- The host's interactions that act on the block (R113): a step of the CPU and the three events that fall between steps. -/
inductive HostEvent where
  /-- `step`: the CPU executes one instruction (R55). -/
  | step
  /-- `tick`: both timers count down (R106). -/
  | tick
  /-- key change: the level of key `k` (R107). -/
  | key (k : Nibble) (pressed : Bool)
  /-- reset with a ROM image (R115). -/
  | reset (rom : List Byte)
  deriving DecidableEq, Repr

/-- The state: the record of R10, then the parameters (R4), then three fields of the model's own. -/
structure State where
  /-- V0–VF (R11, R12) -/
  v       : Vector Byte 16
  /-- the program counter (R13) -/
  pc      : Word
  /-- `I` (R14) -/
  index   : Word
  /-- the call stack, oldest entry first (R15) -/
  stack   : List Word
  /-- memory (R16) -/
  mem     : Memory
  /-- the display surface (R17) -/
  disp    : Surface
  /-- the delay timer DT (R18) -/
  dt      : Byte
  /-- the sound timer ST (R18) -/
  st      : Byte
  /-- the key levels, `true` while pressed (R19) -/
  keys    : Vector Bool 16
  /-- Running, or Halted with its error record (R20) -/
  status  : Status
  /-- the parameters of R4: fixed, no step or event writes them (log 6) -/
  cfg     : Config
  /-- THE MODEL'S OWN: how many `FrameReady` events the block has emitted since reset (R37, log 7) -/
  frames  : Nat
  /-- THE MODEL'S OWN: the number of the next free value (log 1, log 2) -/
  draws   : Nat
  /-- THE MODEL'S OWN: the host's coming interactions, next first; when empty the host only steps (log 3) -/
  agenda  : List HostEvent
  deriving DecidableEq, Repr

/-- The machine never stops with a fault: every error of the spec is a fatal error that it enters, as a next state whose
status is Halted (R102). The type therefore has no constructor, raised by nothing (safe). -/
inductive Fault where
  deriving DecidableEq, Repr

/-- Why the model gives no next state. -/
inductive Refusal where
  /-- Raised by an arm of `exec` for an instruction without a meaning; this model has no such arm (safe: nothing follows). -/
  | notModelled (mnemonic : String)
  /-- Raised by a reset whose ROM image has `length` > 3584 bytes: the spec refuses it and no state changes (R117, D23);
  safe, since nothing can be proved of a state that does not follow. -/
  | romTooLong (length : Nat)
  deriving DecidableEq, Repr

/-- What every step and event answers. -/
abbrev Result := Host.Outcome State Fault Refusal

/-- The state after a reset with an empty ROM image (R23, R115; D12 for all but V and `pc`, log 9), under the parameters `c`:
memory lists nothing. -/
def State.powerOn (c : Config) : State where
  v := Vector.replicate 16 0
  pc := BitVec.ofNat 16 programStart
  index := 0
  stack := []
  mem := []
  disp := Vector.replicate 64 (Vector.replicate 32 false)
  dt := 0
  st := 0
  keys := Vector.replicate 16 false
  status := .running
  cfg := c
  frames := 0
  draws := 0
  agenda := []

/-- The state right after reset (R23), with the default parameters and no ROM image (log 4). -/
def State.reset : State := State.powerOn Config.default

end Sys2Proof.Machine
end

