-- ==== Sys2Proof/Machine/Ops.lean ====
section
/-! DEFINITION. The named operations over registers, memory, stack, timers and status that every instruction is written
over, and error entry (60_exceptions.md R102), the block's only trap entry. There is no return from it (R103). -/

namespace Sys2Proof.Machine

/-! ### Field updates -/

def State.setPc (s : State) (p : Word) : State := { s with pc := p }
def State.setIndex (s : State) (a : Word) : State := { s with index := a }
def State.setStack (s : State) (k : List Word) : State := { s with stack := k }
def State.setMem (s : State) (m : Memory) : State := { s with mem := m }
def State.setDisp (s : State) (d : Surface) : State := { s with disp := d }
/-- `setDelayTimer` (R39). -/
def State.setDT (s : State) (b : Byte) : State := { s with dt := b }
/-- `setSoundTimer` (R39). -/
def State.setST (s : State) (b : Byte) : State := { s with st := b }
def State.setStatus (s : State) (r : Status) : State := { s with status := r }
def State.setAgenda (s : State) (es : List HostEvent) : State := { s with agenda := es }
/-- `presentScreen` (R37): emit one `FrameReady`. -/
def State.present (s : State) : State := { s with frames := s.frames + 1 }
/-- Use up the free value numbered `s.draws`. -/
def State.nextDraw (s : State) : State := { s with draws := s.draws + 1 }

/-! ### Registers (R7, R11) -/

/-- `V[x]`. -/
def State.reg (s : State) (x : Nibble) : Byte := s.v[x.toNat]'x.isLt

/-- `V[x] <- b`. -/
def State.setReg (s : State) (x : Nibble) (b : Byte) : State := { s with v := s.v.set x.toNat b x.isLt }

/-- `isKeyPressed(k)` (R38). -/
def State.keyPressed (s : State) (k : Nibble) : Bool := s.keys[k.toNat]'k.isLt

/-- `keys[k] <- pressed`, done by the host alone (R107). -/
def State.setKey (s : State) (k : Nibble) (pressed : Bool) : State :=
  { s with keys := s.keys.set k.toNat pressed k.isLt }

/-! ### Program counter (R56, R57): sums are modulo 2^16 -/

/-- `pc <- pc + 2`. -/
def State.advance (s : State) : State := s.setPc (s.pc + 2)

/-- `pc <- pc + 4` if the condition holds, else `pc <- pc + 2`. -/
def State.skipIf (s : State) (cond : Bool) : State := s.setPc (if cond then s.pc + 4 else s.pc + 2)

/-! ### Memory (R16, R25, R33) -/

/-- What an address reads as when no cell lists it: the reset contents, which are the font at 0x000–0x04F (R116) and
0x00 everywhere else (R23). -/
def initialByte (c : Config) (a : Nat) : Byte :=
  if h : a < 80 then (c.font[a / 5]'(by omega))[a % 5]'(by omega) else 0

/-- `M[a]`, at a checked address. -/
def Memory.read (c : Config) : Memory → Nat → Byte
  | [], a => initialByte c a
  | (k, b) :: rest, a => if a = k then b else Memory.read c rest a

/-- List `b` at the front for address `a`, unless `a` reads as `b` unlisted. -/
def Memory.cons (c : Config) (a : Nat) (b : Byte) (m : Memory) : Memory :=
  if b = initialByte c a then m else (a, b) :: m

/-- `M[a] <- b`, at a checked address; keeps the canonical form. -/
def Memory.write (c : Config) : Memory → Nat → Byte → Memory
  | [], a, b => Memory.cons c a b []
  | (k, d) :: rest, a, b =>
    if a < k then Memory.cons c a b ((k, d) :: rest)
    else if a = k then Memory.cons c a b rest
    else (k, d) :: Memory.write c rest a b

/-- The canonical form from address `lo` on: rising addresses inside memory, no cell that the reset contents give. -/
def Memory.wfFrom (c : Config) : Nat → Memory → Bool
  | _, [] => true
  | lo, (a, b) :: rest => lo ≤ a && a < memSize && b != initialByte c a && Memory.wfFrom c (a + 1) rest

/-- The canonical form of memory. -/
def Memory.wf (c : Config) (m : Memory) : Bool := Memory.wfFrom c 0 m

/-- The byte of memory at a checked address. -/
def State.byteAt (s : State) (a : Nat) : Byte := Memory.read s.cfg s.mem a

/-- `M[a] <- b` at a checked address. -/
def State.storeByte (s : State) (a : Nat) (b : Byte) : State := s.setMem (Memory.write s.cfg s.mem a b)

/-- Stores in the order listed. -/
def State.storeBytes : State → List (Nat × Byte) → State
  | s, [] => s
  | s, (a, b) :: rest => (s.storeByte a b).storeBytes rest

/-- `V[k] <- M[a]` for the listed addresses in order, from register `k` on (R86). -/
def State.loadRegs : State → Nat → List Nat → State
  | s, _, [] => s
  | s, k, a :: rest => (s.setReg (BitVec.ofNat 4 k) (s.byteAt a)).loadRegs (k + 1) rest

/-! ### Fatal errors (R93) -/

/-- The codes of R93 (D21). -/
def ErrorKind.code : ErrorKind → Nat
  | .unrecognizedOpcode => 1
  | .stackUnderflow => 2
  | .stackOverflow => 3
  | .addressOutOfRange => 4
  | .fontWrite => 5
  | .invalidKey => 6
  | .fetchOutsideProgram => 7

/-- The record of R93 for a cause met at `pc`; `word` is `none` when the fetch itself failed. -/
def Cause.record (pc : Word) (word : Option Word) : Cause → ErrorRecord
  | .unrecognizedOpcode => ⟨.unrecognizedOpcode, pc, word, none, none⟩
  | .stackUnderflow => ⟨.stackUnderflow, pc, word, none, none⟩
  | .stackOverflow => ⟨.stackOverflow, pc, word, none, none⟩
  | .addressOutOfRange ea => ⟨.addressOutOfRange, pc, word, some ea, none⟩
  | .fontWrite a => ⟨.fontWrite, pc, word, some a, none⟩
  | .invalidKey v => ⟨.invalidKey, pc, word, none, some v⟩
  | .fetchOutsideProgram a => ⟨.fetchOutsideProgram, pc, word, some a, none⟩

/-- ERROR ENTRY (R102): status becomes Halted with the record, and nothing else changes. -/
def State.raise (s : State) (word : Option Word) (c : Cause) : State :=
  s.setStatus (.halted (c.record s.pc word))

/-- Finish an instruction whose checks gave `r`: go on with the checked values, or enter the error (R41, R102). The
record's word is the instruction's own encoding, which is the word fetched. -/
def State.checked {α : Type} (s : State) (i : Instr) (r : Except Cause α) (k : α → State) : Result :=
  match r with
  | .ok a => .next (k a)
  | .error c => .next (s.raise (some (encode i)) c)

/-! ### Call stack (R15) -/

/-- `push(v)`: the new stack, or StackOverflow. -/
def pushed (depth : Nat) (k : List Word) (v : Word) : Except Cause (List Word) :=
  if k.length < depth then .ok (k ++ [v]) else .error .stackOverflow

/-- `pop()`: the last entry and the stack without it, or StackUnderflow. -/
def popped (k : List Word) : Except Cause (Word × List Word) :=
  match k.getLast? with
  | some v => .ok (v, k.dropLast)
  | none => .error .stackUnderflow

end Sys2Proof.Machine
end

