-- ==== Sys2Proof/Machine/Flags.lean ====
section
/-! DEFINITION. The values VF takes as a flag (10_state.md R12), from the unreduced integers (42_alu.md R68), and the order
in which flag and result are written (D5). -/

namespace Sys2Proof.Machine

/-- VF's register number. -/
def vf : Nibble := 0xF

/-- A flag as VF holds it: 1 or 0. -/
def flagByte (f : Bool) : Byte := if f then 1 else 0

/-- The carry of `8xy4` (R75). -/
def carryFlag (a b : Byte) : Byte := flagByte (decide (a.toNat + b.toNat > 255))

/-- NOT borrow of `a - b` (R76, R78, D6). -/
def noBorrowFlag (a b : Byte) : Byte := flagByte (decide (a.toNat ≥ b.toNat))

/-- The bit `8xy6` shifts out (R77). -/
def lowBitFlag (b : Byte) : Byte := b &&& 1

/-- The bit `8xyE` shifts out (R79). -/
def highBitFlag (a : Byte) : Byte := (a >>> 7) &&& 1

/-- VF first, then `V[x]`: the result is the final value when `x` is 0xF (R75, R77, R79). -/
def State.flagThenResult (s : State) (x : Nibble) (flag result : Byte) : State := (s.setReg vf flag).setReg x result

/-- `V[x]` first, then VF: the flag is the final value when `x` is 0xF (R76, R78). -/
def State.resultThenFlag (s : State) (x : Nibble) (result flag : Byte) : State := (s.setReg x result).setReg vf flag

end Sys2Proof.Machine
end

