-- ==== Sys2Proof/Machine/Operands.lean ====
section
/-! DEFINITION. The operand forms: checked addresses `I + k` and `pc` (20_memory.md R31, R32, R40), key numbers (R38),
the immediates of 30_encoding.md R49, font addresses (R27), decimal digits (43_index_memory.md R84). -/

namespace Sys2Proof.Machine

/-- `CheckAddr(ea)` (R31), `ea` a mathematical integer. -/
def checkAddr (c : Config) (ea : Nat) : Except Cause Nat :=
  if ea ≤ 0xFFF then .ok ea
  else match c.addrPolicy with
    | .fault => .error (.addressOutOfRange ea)
    | .wrap12 => .ok (ea % 4096)

/-- `CheckWrite(ea)` (R32). -/
def checkWrite (c : Config) (ea : Nat) : Except Cause Nat :=
  match checkAddr c ea with
  | .error e => .error e
  | .ok a => if a ≤ 0x04F ∧ c.fontWritePolicy = .fault then .error (.fontWrite a) else .ok a

/-- `CheckFetch(pc)` (R40), in the order of R101. -/
def checkFetch (c : Config) (pc : Nat) : Except Cause (Nat × Nat) :=
  match checkAddr c pc with
  | .error e => .error e
  | .ok a0 =>
    match checkAddr c (pc + 1) with
    | .error e => .error e
    | .ok a1 =>
      if c.lowFetchPolicy = .fault ∧ a0 < programStart then .error (.fetchOutsideProgram a0) else .ok (a0, a1)

/-- Check the `n` addresses from `ea` on in rising order: all of them, or the first failure (R41, R101). -/
def checkBlock (check : Nat → Except Cause Nat) : Nat → Nat → Except Cause (List Nat)
  | _, 0 => .ok []
  | ea, n + 1 =>
    match check ea with
    | .error e => .error e
    | .ok a =>
      match checkBlock check (ea + 1) n with
      | .error e => .error e
      | .ok as => .ok (a :: as)

/-- The checked addresses `I`, …, `I + n - 1` of a block read. -/
def State.readBlock (s : State) (n : Nat) : Except Cause (List Nat) := checkBlock (checkAddr s.cfg) s.index.toNat n

/-- The checked addresses `I`, …, `I + n - 1` of a block write. -/
def State.writeBlock (s : State) (n : Nat) : Except Cause (List Nat) := checkBlock (checkWrite s.cfg) s.index.toNat n

/-- `KeyIndex(v)` (R38). -/
def keyIndex (c : Config) (v : Byte) : Except Cause Nibble :=
  if v.toNat ≤ 0xF then .ok (v.setWidth 4)
  else match c.keyPolicy with
    | .fault => .error (.invalidKey v)
    | .lowNibble => .ok (v.setWidth 4)

/-- The pressed keys, in rising order. -/
def State.pressedKeys (s : State) : List Nibble :=
  ((List.range 16).map (BitVec.ofNat 4)).filter s.keyPressed

/-- One of the listed keys: the only one, or, of several, the one that the free value `draw` points to (D10). -/
def pickKey (draw : Nat) : List Nibble → Option Nibble
  | [] => none
  | [k] => some k
  | k :: k' :: ks => some ((k :: k' :: ks).getD (draw % (ks.length + 2)) k)

/-- `zext_16(nnn)` (R49). -/
def addrOperand (nnn : Addr) : Word := nnn.setWidth 16

/-- `zext_16(V[x])`. -/
def byteOperand (b : Byte) : Word := b.setWidth 16

/-- `fontAddress(d) = d * 5`, for every byte `d` (R27, R83). -/
def fontAddress (d : Byte) : Word := byteOperand d * 5

/-- The hundreds, tens and ones digits (R84). -/
def bcdDigits (v : Byte) : List Byte :=
  [BitVec.ofNat 8 (v.toNat / 100), BitVec.ofNat 8 (v.toNat / 10 % 10), BitVec.ofNat 8 (v.toNat % 10)]

/-- V0, …, Vx (R85). -/
def State.regsUpTo (s : State) (x : Nibble) : List Byte := s.v.toList.take (x.toNat + 1)

end Sys2Proof.Machine
end

