-- ==== Sys2Proof/Machine/Alu.lean ====
section
/-! DEFINITION. The register and ALU instructions (42_alu.md). 8-bit sums and differences wrap (R68). -/

namespace Sys2Proof.Machine

/-- `6xnn` (R69). -/
def execLdByte (x : Nibble) (nn : Byte) (s : State) : Result := .next (s.setReg x nn).advance

/-- `7xnn` (R70). -/
def execAddByte (x : Nibble) (nn : Byte) (s : State) : Result := .next (s.setReg x (s.reg x + nn)).advance

/-- `8xy0` (R71). -/
def execLdReg (x y : Nibble) (s : State) : Result := .next (s.setReg x (s.reg y)).advance

/-- `8xy1` (R72). -/
def execOr (x y : Nibble) (s : State) : Result := .next (s.setReg x (s.reg x ||| s.reg y)).advance

/-- `8xy2` (R73). -/
def execAnd (x y : Nibble) (s : State) : Result := .next (s.setReg x (s.reg x &&& s.reg y)).advance

/-- `8xy3` (R74). -/
def execXor (x y : Nibble) (s : State) : Result := .next (s.setReg x (s.reg x ^^^ s.reg y)).advance

/-- `8xy4` (R75). -/
def execAddReg (x y : Nibble) (s : State) : Result :=
  .next (s.flagThenResult x (carryFlag (s.reg x) (s.reg y)) (s.reg x + s.reg y)).advance

/-- `8xy5` (R76). -/
def execSub (x y : Nibble) (s : State) : Result :=
  .next (s.resultThenFlag x (s.reg x - s.reg y) (noBorrowFlag (s.reg x) (s.reg y))).advance

/-- `8xy6` (R77): the source is `V[y]`. -/
def execShr (x y : Nibble) (s : State) : Result :=
  .next (s.flagThenResult x (lowBitFlag (s.reg y)) (s.reg y >>> 1)).advance

/-- `8xy7` (R78). -/
def execSubn (x y : Nibble) (s : State) : Result :=
  .next (s.resultThenFlag x (s.reg y - s.reg x) (noBorrowFlag (s.reg y) (s.reg x))).advance

/-- `8xyE` (R79): the source is `V[x]`; `y` is not read. -/
def execShl (x _y : Nibble) (s : State) : Result :=
  .next (s.flagThenResult x (highBitFlag (s.reg x)) (s.reg x <<< 1)).advance

/-- `Cxnn` (R80) with the step's random byte `rnd`. -/
def State.loadRandom (s : State) (rnd : Byte) (x : Nibble) (nn : Byte) : State := (s.setReg x (rnd &&& nn)).advance

/-- `Cxnn` (R80): the random byte is the next free value (log 1), and is used up. -/
def execRnd (x : Nibble) (nn : Byte) (s : State) : Result :=
  .next (s.loadRandom (Config.randomByte s.draws) x nn).nextDraw

end Sys2Proof.Machine
end

