-- ==== Sys2Proof/Machine/ControlFlow.lean ====
section
/-! DEFINITION. The control-flow instructions (41_control_flow.md). -/

namespace Sys2Proof.Machine

/-- `00EE` (R60). -/
def execRet (s : State) : Result :=
  s.checked .ret (popped s.stack) fun p => (s.setStack p.2).setPc p.1

/-- `1nnn` (R61). -/
def execJp (nnn : Addr) (s : State) : Result := .next (s.setPc (addrOperand nnn))

/-- `2nnn` (R62). -/
def execCall (nnn : Addr) (s : State) : Result :=
  s.checked (.call nnn) (pushed s.cfg.stackDepth s.stack (s.pc + 2)) fun k => (s.setStack k).setPc (addrOperand nnn)

/-- `3xnn` (R63). -/
def execSeByte (x : Nibble) (nn : Byte) (s : State) : Result := .next (s.skipIf (s.reg x == nn))

/-- `4xnn` (R64). -/
def execSneByte (x : Nibble) (nn : Byte) (s : State) : Result := .next (s.skipIf (s.reg x != nn))

/-- `5xy0` (R65). -/
def execSeReg (x y : Nibble) (s : State) : Result := .next (s.skipIf (s.reg x == s.reg y))

/-- `9xy0` (R66). -/
def execSneReg (x y : Nibble) (s : State) : Result := .next (s.skipIf (s.reg x != s.reg y))

/-- `Bnnn` (R67). -/
def execJpV0 (nnn : Addr) (s : State) : Result := .next (s.setPc (byteOperand (s.reg 0) + addrOperand nnn))

end Sys2Proof.Machine
end

