-- ==== Sys2Proof/Machine/Blit.lean ====
section
/-! DEFINITION. The display's XOR-blit unit (20_memory.md R35, R36). -/

namespace Sys2Proof.Machine

/-- The pixel at column `x`, row `y`; coordinates are taken modulo 64 and 32 (R35). -/
def Surface.pixel (d : Surface) (x y : Nat) : Bool :=
  (d[x % 64]'(Nat.mod_lt _ (by decide)))[y % 32]'(Nat.mod_lt _ (by decide))

/-- Set or unset that pixel. -/
def Surface.setPixel (d : Surface) (x y : Nat) (on : Bool) : Surface :=
  d.set (x % 64)
    ((d[x % 64]'(Nat.mod_lt _ (by decide))).set (y % 32) on (Nat.mod_lt _ (by decide)))
    (Nat.mod_lt _ (by decide))

/-- `clearScreen()` (R36). -/
def Surface.blank : Surface := Vector.replicate 64 (Vector.replicate 32 false)

/-- The part of `drawByte` for the columns `c` of the list: the surface and whether a set pixel was unset. Bit `7 - c`
of the byte goes to column `x + c` (D19). -/
def Surface.drawColumns (b : Byte) (x y : Nat) : List Nat → Surface → Surface × Bool
  | [], d => (d, false)
  | c :: cs, d =>
    if b.getLsbD (7 - c) then
      let r := Surface.drawColumns b x y cs (d.setPixel (x + c) y (!d.pixel (x + c) y))
      (r.1, d.pixel (x + c) y || r.2)
    else Surface.drawColumns b x y cs d

/-- `drawByte(b, x, y)` (R35). -/
def Surface.drawByte (d : Surface) (b : Byte) (x y : Nat) : Surface × Bool :=
  Surface.drawColumns b x y (List.range 8) d

/-- The rows of a sprite, the first at row `y` (R59): the surface and whether any row collided. -/
def Surface.drawRows (x : Nat) : Nat → List Byte → Surface → Surface × Bool
  | _, [], d => (d, false)
  | y, b :: bs, d =>
    let r := d.drawByte b x y
    let q := Surface.drawRows x (y + 1) bs r.1
    (q.1, r.2 || q.2)

/-- The pixel of the state's display at column `x`, row `y`. -/
def State.pixel (s : State) (x y : Nat) : Bool := s.disp.pixel x y

end Sys2Proof.Machine
end

