-- ==== Sys2Proof/Machine/Display.lean ====
section
/-! DEFINITION. The display instructions (40_display.md). -/

namespace Sys2Proof.Machine

/-- `00E0` (R58). -/
def execCls (s : State) : Result := .next ((s.setDisp Surface.blank).present).advance

/-- Draw the sprite whose bytes lie at the checked addresses, then write VF and signal the frame (R59). -/
def State.drawSprite (s : State) (x y : Nibble) (addrs : List Nat) : State :=
  let r := Surface.drawRows ((s.reg x).toNat % 64) ((s.reg y).toNat % 32) (addrs.map s.byteAt) s.disp
  (((s.setDisp r.1).setReg vf (flagByte r.2)).present).advance

/-- `Dxyn` (R59). -/
def execDrw (x y n : Nibble) (s : State) : Result :=
  s.checked (.drw x y n) (s.readBlock n.toNat) fun addrs => s.drawSprite x y addrs

end Sys2Proof.Machine
end

