-- ==== Sys2Proof/Machine/IndexMemory.lean ====
section
/-! DEFINITION. The index-register, load and store instructions (43_index_memory.md). -/

namespace Sys2Proof.Machine

/-- `Annn` (R81). -/
def execLdI (nnn : Addr) (s : State) : Result := .next (s.setIndex (addrOperand nnn)).advance

/-- `Fx1E` (R82). -/
def execAddIVx (x : Nibble) (s : State) : Result := .next (s.setIndex (s.index + byteOperand (s.reg x))).advance

/-- `Fx29` (R83). -/
def execLdFVx (x : Nibble) (s : State) : Result := .next (s.setIndex (fontAddress (s.reg x))).advance

/-- `Fx33` (R84). -/
def execLdBVx (x : Nibble) (s : State) : Result :=
  s.checked (.ldBVx x) (s.writeBlock 3) fun addrs => (s.storeBytes (addrs.zip (bcdDigits (s.reg x)))).advance

/-- `I <- (I + x + 1) mod 2^16` (R85, R86). -/
def State.bumpIndex (s : State) (x : Nibble) : State := s.setIndex (s.index + BitVec.ofNat 16 (x.toNat + 1))

/-- `Fx55` (R85). -/
def execLdMemVx (x : Nibble) (s : State) : Result :=
  s.checked (.ldMemVx x) (s.writeBlock (x.toNat + 1)) fun addrs =>
    ((s.storeBytes (addrs.zip (s.regsUpTo x))).bumpIndex x).advance

/-- `Fx65` (R86). -/
def execLdVxMem (x : Nibble) (s : State) : Result :=
  s.checked (.ldVxMem x) (s.readBlock (x.toNat + 1)) fun addrs => ((s.loadRegs 0 addrs).bumpIndex x).advance

end Sys2Proof.Machine
end

