-- ==== Sys2Proof/Machine/Input.lean ====
section
/-! DEFINITION. The input-pad instructions (44_input.md). -/

namespace Sys2Proof.Machine

/-- `Ex9E` (R87). -/
def execSkp (x : Nibble) (s : State) : Result :=
  s.checked (.skp x) (keyIndex s.cfg (s.reg x)) fun k => s.skipIf (s.keyPressed k)

/-- `ExA1` (R88). -/
def execSknp (x : Nibble) (s : State) : Result :=
  s.checked (.sknp x) (keyIndex s.cfg (s.reg x)) fun k => s.skipIf (!s.keyPressed k)

/-- `Fx0A` (R89) with the step's choice `draw` among several pressed keys: with no key pressed nothing changes. -/
def State.takeKey (s : State) (draw : Nat) (x : Nibble) : State :=
  match pickKey draw s.pressedKeys with
  | none => s
  | some k => (s.setReg x (k.setWidth 8)).advance

/-- `Fx0A` (R89): of several pressed keys the next free value chooses (log 2), and is used up. -/
def execLdVxK (x : Nibble) (s : State) : Result :=
  if s.pressedKeys.length ≤ 1 then .next (s.takeKey 0 x)
  else .next (s.takeKey (Config.keyDraw s.draws) x).nextDraw

end Sys2Proof.Machine
end

