-- ==== Sys2Proof/Machine/Timers.lean ====
section
/-! DEFINITION. The timer instructions (45_timers.md). -/

namespace Sys2Proof.Machine

/-- `Fx07` (R90). -/
def execLdVxDt (x : Nibble) (s : State) : Result := .next (s.setReg x s.dt).advance

/-- `Fx15` (R91). -/
def execLdDtVx (x : Nibble) (s : State) : Result := .next (s.setDT (s.reg x)).advance

/-- `Fx18` (R92). -/
def execLdStVx (x : Nibble) (s : State) : Result := .next (s.setST (s.reg x)).advance

end Sys2Proof.Machine
end

