-- ==== Sys2Proof/Machine/Fetch.lean ====
section
/-! DEFINITION. Instruction fetch (30_encoding.md R47, 20_memory.md R40), decode within a step (R51, R94), and the placing
of a word where the next fetch finds it. -/

namespace Sys2Proof.Machine

/-- The word at `pc`, from memory at this very step (R45), or why it cannot be fetched. -/
def State.fetch (s : State) : Except Cause Word :=
  match checkFetch s.cfg s.pc.toNat with
  | .error e => .error e
  | .ok (a0, a1) => .ok (wordOfBytes (s.byteAt a0) (s.byteAt a1))

/-- Fetch and decode (R55, R101 items 1 and 2): the instruction, or the state that enters the error. -/
def State.fetchDecode (s : State) : Except State Instr :=
  match s.fetch with
  | .error e => .error (s.raise none e)
  | .ok w =>
    match decodeWord w with
    | none => .error (s.raise (some w) .unrecognizedOpcode)
    | some i => .ok i

/-- The state in which the block is running, the host only steps, and `pc` addresses two bytes that can be fetched: `pc` is
kept where it does, and is 0x200 otherwise. -/
def State.readyToFetch (s : State) : State :=
  let r := (s.setStatus .running).setAgenda []
  match checkFetch s.cfg s.pc.toNat with
  | .ok _ => r
  | .error _ => r.setPc (BitVec.ofNat 16 programStart)

/-- `w` stored big-endian at `pc` and `pc + 1`, past the write checks, as a load from outside does. -/
def State.placeWord (s : State) (w : Word) : State :=
  match checkFetch s.cfg s.pc.toNat with
  | .ok (a0, a1) => s.storeBytes ([a0, a1].zip (bytesOfWord w))
  | .error _ => s

end Sys2Proof.Machine
end

