-- ==== Sys2Proof/Machine/HostEvents.lean ====
section
/-! DEFINITION. The host's events between steps and its reads (60_exceptions.md R106, R107, R109, R113; 70_reset R115, R117).
The host cannot write registers, memory or the stack of a running block. -/

namespace Sys2Proof.Machine

/-- `Tick()` (R106): both timers count down together and stop at 0. -/
def State.tick (s : State) : State :=
  (s.setDT (BitVec.ofNat 8 (s.dt.toNat - 1))).setST (BitVec.ofNat 8 (s.st.toNat - 1))

/-- The ROM image copied to memory from address `a` on (R117). -/
def State.loadRom : State → Nat → List Byte → State
  | s, _, [] => s
  | s, a, b :: bs => (s.storeByte a b).loadRom (a + 1) bs

/-- The state after a reset with a ROM image that fits (R115). The parameters stay; so do the model's numbering of free
values, which never repeats, and what the host does next. -/
def State.resetWith (s : State) (rom : List Byte) : State :=
  { State.powerOn s.cfg with draws := s.draws, agenda := s.agenda }.loadRom programStart rom

/-- `Reset(rom)` (R115): an image longer than 3584 bytes is refused (R117). -/
def State.hostReset (s : State) (rom : List Byte) : Result :=
  if romFits rom then .next (s.resetWith rom) else .refused (.romTooLong rom.length)

/-- display read (R113). -/
def State.displayRead (s : State) : Surface := s.disp

/-- status read (R113). -/
def State.statusRead (s : State) : Status := s.status

/-- sound read (R113). -/
def State.soundRead (s : State) : Byte := s.st

end Sys2Proof.Machine
end

