-- ==== Sys2Proof/Machine/Step.lean ====
section
/-! DEFINITION. One transition of the machine: a step of the CPU (30_encoding.md R55) or the host's next event (60_exceptions.md
R113, 20_memory.md R44). -/

namespace Sys2Proof.Machine

/-- `Step` (R55): in Halted nothing changes (R103); otherwise fetch, decode and execute. -/
def cpuStep (s : State) : Result :=
  match s.status with
  | .halted _ => .next s
  | .running =>
    match s.fetchDecode with
    | .error t => .next t
    | .ok i => exec i s

/-- One interaction of the host with the block (R113). -/
def hostEvent (e : HostEvent) (s : State) : Result :=
  match e with
  | .step => cpuStep s
  | .tick => .next s.tick
  | .key k pressed => .next (s.setKey k pressed)
  | .reset rom => s.hostReset rom

/-- The next interaction: the agenda's first, or a step of the CPU when the agenda is empty (log 3). -/
def step (s : State) : Host.Outcome State Fault Refusal :=
  match s.agenda with
  | [] => cpuStep s
  | e :: rest => hostEvent e (s.setAgenda rest)

/-- `s` with the instruction of an opcode-table row stored where `step` fetches next, and the CPU's step coming next. -/
def State.withFetchWord (s : State) (nbits w : Nat) : State := s.readyToFetch.placeWord (tableWord nbits w)

end Sys2Proof.Machine
end

