-- ==== Sys2Proof/Safety.lean ====
section
/-! DEFINITION. The terms in which claims about the block are made: the end of a run (60_exceptions.md R114), what two states
share (frames), the addresses of a block access (43_index_memory.md), and the invariant of every run. -/

namespace Sys2Proof.Machine

/-! ### Turns and ends of a run -/

/-- The state the CPU's step runs in, when the CPU's step comes next. -/
def State.cpuTurn (s : State) : Option State :=
  match s.agenda with
  | [] => some s
  | .step :: rest => some (s.setAgenda rest)
  | _ :: _ => none

/-- `Faulted` (R114): a bad end. -/
def State.faulted (s : State) : Bool :=
  match s.status with
  | .halted _ => true
  | .running => false

/-- `Parked` (R114): running, and the word at `pc` is a jump to itself. -/
def State.parked (s : State) : Bool :=
  !s.faulted &&
    match s.fetch with
    | .ok w => opOf w == 1 && addrOperand (nnnOf w) == s.pc
    | .error _ => false

/-! ### Frames -/

/-- The parts of the state. -/
inductive Part where
  | v
  | pc
  | index
  | stack
  | mem
  | disp
  | dt
  | st
  | keys
  | status
  | cfg
  | frames
  | draws
  | agenda
  deriving DecidableEq, Repr

/-- The part reads the same in both states: registers, keys, pixels and bytes of memory one by one. -/
def SamePart (s t : State) : Part → Prop
  | .v => ∀ r, t.reg r = s.reg r
  | .pc => t.pc = s.pc
  | .index => t.index = s.index
  | .stack => t.stack = s.stack
  | .mem => ∀ a, t.byteAt a = s.byteAt a
  | .disp => ∀ x y, t.pixel x y = s.pixel x y
  | .dt => t.dt = s.dt
  | .st => t.st = s.st
  | .keys => ∀ k, t.keyPressed k = s.keyPressed k
  | .status => t.status = s.status
  | .cfg => t.cfg = s.cfg
  | .frames => t.frames = s.frames
  | .draws => t.draws = s.draws
  | .agenda => t.agenda = s.agenda

/-- From `s` to `t` no part outside the list changes. -/
def OnlyChanges (ps : List Part) (s t : State) : Prop := ∀ p, p ∉ ps → SamePart s t p

/-- Every register outside the list is unchanged. -/
def RegsKept (rs : List Nibble) (s t : State) : Prop := ∀ r, r ∉ rs → t.reg r = s.reg r

/-- Every byte of memory outside the listed addresses is unchanged. -/
def BytesKept (as : List Nat) (s t : State) : Prop := ∀ a, a ∉ as → t.byteAt a = s.byteAt a

/-! ### Block accesses through `I` -/

/-- The address of byte `k` of a block at `I`: `I + k`, which `wrap12` reduces modulo 4096 (R31). -/
def State.blockAddr (s : State) (k : Nat) : Nat := (s.index.toNat + k) % 4096

/-- The addresses of a block of `n` bytes, first byte first. -/
def State.blockAddrs (s : State) (n : Nat) : List Nat := (List.range n).map s.blockAddr

/-- The address `I + k` exists, or is wrapped (R31). -/
def State.InRange (s : State) (k : Nat) : Prop := s.index.toNat + k ≤ 0xFFF ∨ s.cfg.addrPolicy = .wrap12

/-- The address of byte `k` may be written (R32). -/
def State.OffFont (s : State) (k : Nat) : Prop := 0x050 ≤ s.blockAddr k ∨ s.cfg.fontWritePolicy = .allow

/-- Every byte of a block of `n` bytes at `I` may be read. -/
def State.CanRead (s : State) (n : Nat) : Prop := ∀ k, k < n → s.InRange k

/-- Every byte of a block of `n` bytes at `I` may be written. -/
def State.CanWrite (s : State) (n : Nat) : Prop := ∀ k, k < n → s.InRange k ∧ s.OffFont k

/-! ### What each instruction may do, as the spec's tables say it -/

/-- The parts an instruction writes, its errors among them (R10, the owner table; R37; R58–R92). -/
def partsWritten : Instr → List Part
  | .cls => [.disp, .frames, .pc]
  | .ret | .call _ => [.stack, .pc, .status]
  | .jp _ | .jpV0 _ => [.pc]
  | .seByte _ _ | .sneByte _ _ | .seReg _ _ | .sneReg _ _ => [.pc]
  | .ldByte _ _ | .addByte _ _ | .ldReg _ _ | .orReg _ _ | .andReg _ _ | .xorReg _ _ => [.v, .pc]
  | .addReg _ _ | .sub _ _ | .shr _ _ | .subn _ _ | .shl _ _ => [.v, .pc]
  | .rnd _ _ | .ldVxK _ => [.v, .pc, .draws]
  | .ldI _ | .ldFVx _ | .addIVx _ => [.index, .pc]
  | .drw _ _ _ => [.v, .disp, .frames, .pc, .status]
  | .skp _ | .sknp _ => [.pc, .status]
  | .ldVxDt _ => [.v, .pc]
  | .ldDtVx _ => [.dt, .pc]
  | .ldStVx _ => [.st, .pc]
  | .ldBVx _ => [.mem, .pc, .status]
  | .ldMemVx _ => [.mem, .index, .pc, .status]
  | .ldVxMem _ => [.v, .index, .pc, .status]

/-- Whether an instruction writes a register: as its destination, or VF as a side effect (R12). -/
def writesReg (r : Nibble) : Instr → Bool
  | .cls | .ret | .jp _ | .call _ | .jpV0 _ => false
  | .seByte _ _ | .sneByte _ _ | .seReg _ _ | .sneReg _ _ | .skp _ | .sknp _ => false
  | .ldByte x _ | .addByte x _ | .ldReg x _ | .orReg x _ | .andReg x _ | .xorReg x _ | .rnd x _ => r == x
  | .addReg x _ | .sub x _ | .shr x _ | .subn x _ | .shl x _ => r == x || r == 0xF
  | .drw _ _ _ => r == 0xF
  | .ldVxDt x | .ldVxK x => r == x
  | .ldI _ | .ldFVx _ | .addIVx _ | .ldDtVx _ | .ldStVx _ | .ldBVx _ | .ldMemVx _ => false
  | .ldVxMem x => r.toNat ≤ x.toNat

/-- The kinds of error an instruction's own conditions raise (R101, item 3). -/
def errorsRaised : Instr → List ErrorKind
  | .ret => [.stackUnderflow]
  | .call _ => [.stackOverflow]
  | .skp _ | .sknp _ => [.invalidKey]
  | .drw _ _ _ | .ldVxMem _ => [.addressOutOfRange]
  | .ldBVx _ | .ldMemVx _ => [.addressOutOfRange, .fontWrite]
  | .cls | .jp _ | .seByte _ _ | .sneByte _ _ | .seReg _ _ | .ldByte _ _ | .addByte _ _ | .ldReg _ _ => []
  | .orReg _ _ | .andReg _ _ | .xorReg _ _ | .addReg _ _ | .sub _ _ | .shr _ _ | .subn _ _ | .shl _ _ => []
  | .sneReg _ _ | .ldI _ | .jpV0 _ | .rnd _ _ | .ldVxDt _ | .ldVxK _ | .ldDtVx _ | .ldStVx _ => []
  | .ldFVx _ | .addIVx _ => []

/-- `pc` after an instruction that raises nothing, by the table of R56. -/
def PcAfter (s t : State) : Instr → Prop
  | .jp nnn | .call nnn => t.pc.toNat = nnn.toNat
  | .ret => s.stack.getLast? = some t.pc
  | .jpV0 nnn => t.pc.toNat = (s.reg 0).toNat + nnn.toNat
  | .seByte x nn => t.pc = if s.reg x = nn then s.pc + 4 else s.pc + 2
  | .sneByte x nn => t.pc = if s.reg x = nn then s.pc + 2 else s.pc + 4
  | .seReg x y => t.pc = if s.reg x = s.reg y then s.pc + 4 else s.pc + 2
  | .sneReg x y => t.pc = if s.reg x = s.reg y then s.pc + 2 else s.pc + 4
  | .skp x => t.pc = if s.keyPressed ((s.reg x).setWidth 4) then s.pc + 4 else s.pc + 2
  | .sknp x => t.pc = if s.keyPressed ((s.reg x).setWidth 4) then s.pc + 2 else s.pc + 4
  | .ldVxK _ => ((∃ k, s.keyPressed k = true) → t.pc = s.pc + 2) ∧ ((∀ k, s.keyPressed k = false) → t.pc = s.pc)
  | .cls | .ldByte _ _ | .addByte _ _ | .ldReg _ _ | .orReg _ _ | .andReg _ _ | .xorReg _ _ => t.pc = s.pc + 2
  | .addReg _ _ | .sub _ _ | .shr _ _ | .subn _ _ | .shl _ _ | .ldI _ | .rnd _ _ | .drw _ _ _ => t.pc = s.pc + 2
  | .ldVxDt _ | .ldDtVx _ | .ldStVx _ | .ldFVx _ | .ldBVx _ | .ldMemVx _ | .ldVxMem _ | .addIVx _ => t.pc = s.pc + 2

/-- The sprite of `Dxyn` covers the pixel `(px, py)`, both in range, with a 1 bit: the pixel lies in row `r` < `n` and
column `c` < 8 of the sprite that starts at `(V[x] mod 64, V[y] mod 32)`, wrapping, and bit `7 - c` of `M[I + r]` is 1
(R35, R59). -/
def State.spriteBit (s : State) (x y n : Nibble) (px py : Nat) : Bool :=
  let c := (px + 64 - (s.reg x).toNat % 64) % 64
  let r := (py + 32 - (s.reg y).toNat % 32) % 32
  decide (r < n.toNat) && decide (c < 8) && (s.byteAt (s.blockAddr r)).getLsbD (7 - c)

/-! ### The invariant -/

/-- What holds in every run from reset, whatever the program, the host's events and the free values. -/
structure State.Inv (s : State) : Prop where
  /-- Memory is in its canonical form. -/
  memCanonical : Memory.wf s.cfg s.mem = true
  /-- The stack never holds more than `STACK_DEPTH` entries (R10, R15). -/
  stackFits : s.stack.length ≤ s.cfg.stackDepth
  /-- The font is immutable where its writes are errors (R32, R120). -/
  fontKept : s.cfg.fontWritePolicy = .fault → ∀ a, a < fontBytes → s.byteAt a = initialByte s.cfg a
  /-- Where addresses do not wrap, `pc` stays in the bounds of R57. -/
  pcBounded : s.cfg.addrPolicy = .fault → s.pc.toNat ≤ 0x10FE
  /-- Where addresses do not wrap, so do the return addresses: `pc + 2` of a fetched call. -/
  returnsBounded : s.cfg.addrPolicy = .fault → ∀ r ∈ s.stack, r.toNat ≤ 0x1000
  /-- A halted block's record names the instruction that `pc` still addresses (R102). -/
  errorAtPc : ∀ e, s.status = .halted e → e.pc = s.pc

end Sys2Proof.Machine
end

