-- ==== Sys2Proof/Certificates/Slice0/Obligations.lean ====
section
/-! DEFINITION. The statements for the provers, from the numbered rules of spec/. A statement about a free value holds for
every value of it; one that rests on a decision of 92_eei_decisions.md or on the model's own log names it. -/

open Sys2Proof Sys2Proof.Machine

/-! ### Encoding -/

/-- 30_encoding.md R50, R51: words written out from the patterns decode to the instructions they stand for. -/
def Obligations.WrittenWordsDecode : Prop :=
  decodeWord 0x00E0 = some .cls ∧ decodeWord 0x1ABC = some (.jp 0xABC) ∧
  decodeWord 0x3342 = some (.seByte 3 0x42) ∧ decodeWord 0x812E = some (.shl 1 2) ∧
  decodeWord 0xA300 = some (.ldI 0x300) ∧ decodeWord 0xD015 = some (.drw 0 1 5) ∧
  decodeWord 0xE29E = some (.skp 2) ∧ decodeWord 0xF507 = some (.ldVxDt 5) ∧
  decodeWord 0xF155 = some (.ldMemVx 1) ∧ decodeWord 0x01E0 = none ∧ decodeWord 0x5121 = none

/-- 30_encoding.md R50, R51: no bit of an encoding is dropped, for every instruction and every operand. -/
def Obligations.DecodeAfterEncodeIsIdentity : Prop :=
  ∀ i : Instr, decodeWord (encode i) = some i ∧ ∀ rest, decode (bytesOfWord (encode i) ++ rest) = .ok (i, rest)

/-- 30_encoding.md R51, R53: each word has one meaning, so the word of a decoded instruction is the word it was read from. -/
def Obligations.EncodeAfterDecodeIsIdentity : Prop :=
  ∀ (w : Word) (i : Instr), decodeWord w = some i → encode i = w

/-- 30_encoding.md R50: the map has 34 rows, no two match one word, and a word is the instruction of a row exactly when
`word & mask = match`. -/
def Obligations.OpcodeMapDecidesEveryWord : Prop :=
  opcodeTable.length = 34 ∧
  (∀ w, opcodeTable.Pairwise fun r q => ¬ (w &&& r.mask = r.matchBits ∧ w &&& q.mask = q.matchBits)) ∧
  (∀ w, ∀ r ∈ opcodeTable,
    (w &&& r.mask = r.matchBits ↔ ∃ i, decodeWord w = some i ∧ i.mnemonic = r.mnemonic)) ∧
  ∀ w i, decodeWord w = some i → ∃ r ∈ opcodeTable, i.mnemonic = r.mnemonic ∧ w &&& r.mask = r.matchBits

/-- 30_encoding.md R52 (the table of illegal words, not its counts): the decoder refuses exactly those words. -/
def Obligations.IllegalWordsAreExactlyTheListed : Prop :=
  ∀ w : Word, decodeWord w = none ↔ legalWord w = false

/-! ### The step -/

/-- 30_encoding.md R55: on the CPU's turn, a running block whose two bytes at `pc` decode to `i` executes `i`, and nothing
is added around it. The CPU's turn comes when the agenda (log 3) is empty or its first entry is a step. -/
def Obligations.StepRunsTheDecodedInstruction : Prop :=
  ∀ (s t : State) (a0 a1 : Nat) (i : Instr), s.cpuTurn = some t → t.status = .running →
    checkFetch t.cfg t.pc.toNat = .ok (a0, a1) → decode [t.byteAt a0, t.byteAt a1] = .ok (i, []) →
    step s = exec i t

/-- 20_memory.md R28, R29, R40, 30_encoding.md R47 (D2, D15, D17): whenever `pc`, odd or even, passes the fetch checks, which
is said here without `checkFetch`, the fetch composes big-endian the bytes at `pc` and `pc + 1`, both modulo 4096. So under
`wrap12` the fetch at 0xFFF takes its second byte from 0x000, and under `allow` code below 0x200 is fetched. -/
def Obligations.FetchIsBigEndianAtEveryAlignment : Prop :=
  ∀ s : State, (s.pc.toNat + 1 ≤ 0xFFF ∨ s.cfg.addrPolicy = .wrap12) →
    (0x200 ≤ s.pc.toNat % 4096 ∨ s.cfg.lowFetchPolicy = .allow) →
    ∃ w, s.fetch = .ok w ∧
      w.toNat = 256 * (s.byteAt (s.pc.toNat % 4096)).toNat + (s.byteAt ((s.pc.toNat + 1) % 4096)).toNat

/-- 20_memory.md R31, R40, 60_exceptions.md R97, R100, R101 (decisions D2, D15, D27): the three ways a fetch fails, which one
is met first, the error record without a word, and nothing else changed. -/
def Obligations.FetchFailuresHaltTheBlock : Prop :=
  ∀ s t : State, s.cpuTurn = some t → t.status = .running →
    (t.cfg.addrPolicy = .fault → 0xFFF < t.pc.toNat →
      ∃ u, step s = .next u ∧ OnlyChanges [.status] t u ∧
        u.status = .halted ⟨.addressOutOfRange, t.pc, none, some t.pc.toNat, none⟩) ∧
    (t.cfg.addrPolicy = .fault → t.pc.toNat = 0xFFF →
      ∃ u, step s = .next u ∧ OnlyChanges [.status] t u ∧
        u.status = .halted ⟨.addressOutOfRange, t.pc, none, some 0x1000, none⟩) ∧
    (t.cfg.lowFetchPolicy = .fault → (t.pc.toNat + 1 ≤ 0xFFF ∨ t.cfg.addrPolicy = .wrap12) →
      t.pc.toNat % 4096 < 0x200 →
      ∃ u, step s = .next u ∧ OnlyChanges [.status] t u ∧
        u.status = .halted ⟨.fetchOutsideProgram, t.pc, none, some (t.pc.toNat % 4096), none⟩)

/-- 60_exceptions.md R94, 30_encoding.md R52: an illegal word that is fetched halts the block with `pc` and the word. -/
def Obligations.IllegalWordHaltsWithItsWord : Prop :=
  ∀ (s t : State) (w : Word), s.cpuTurn = some t → t.status = .running → t.fetch = .ok w → legalWord w = false →
    ∃ u, step s = .next u ∧ OnlyChanges [.status] t u ∧
      u.status = .halted ⟨.unrecognizedOpcode, t.pc, some w, none, none⟩

/-- 60_exceptions.md R102 (decision D16): errors are precise. A step of the CPU that ends Halted, whatever raised it, changes
nothing but the status, and its record carries the `pc` of the instruction and the word fetched, or none when the fetch
failed. -/
def Obligations.ErrorsArePrecise : Prop :=
  ∀ (s t u : State) (e : ErrorRecord), s.cpuTurn = some t → t.status = .running → step s = .next u →
    u.status = .halted e →
    OnlyChanges [.status] t u ∧ e.pc = t.pc ∧ (∀ w, t.fetch = .ok w → e.word = some w) ∧
      (∀ c, t.fetch = .error c → e.word = none)

/-- 60_exceptions.md R101 item 3, R93: each instruction raises only the errors listed for it, with its own word. -/
def Obligations.EachInstructionRaisesOnlyItsOwnErrors : Prop :=
  ∀ (i : Instr) (s t : State) (e : ErrorRecord), s.status = .running → exec i s = .next t → t.status = .halted e →
    e.kind ∈ errorsRaised i ∧ e.word = some (encode i) ∧ e.pc = s.pc

/-- 60_exceptions.md R103, R106, R107, R113 (decision D22): in Halted a step of the CPU changes nothing, a tick still counts
both timers down, a key change still sets its key's level, and the only transition to Running is a reset. That the events
come as entries of the agenda is the model's (log 3). -/
def Obligations.HaltedIsLeftOnlyByReset : Prop :=
  ∀ (s : State) (e : ErrorRecord), s.status = .halted e →
    cpuStep s = .next s ∧
    (∀ t, s.cpuTurn = some t → step s = .next t ∧ OnlyChanges [.agenda] s t) ∧
    (∀ rest, s.agenda = .tick :: rest →
      ∃ t, step s = .next t ∧ t.dt.toNat = s.dt.toNat - 1 ∧ t.st.toNat = s.st.toNat - 1 ∧
        OnlyChanges [.dt, .st, .agenda] s t) ∧
    (∀ k p rest, s.agenda = .key k p :: rest →
      ∃ t, step s = .next t ∧ t.keyPressed k = p ∧ (∀ j, j ≠ k → t.keyPressed j = s.keyPressed j) ∧
        OnlyChanges [.keys, .agenda] s t) ∧
    (∀ rom rest, s.agenda = .reset rom :: rest → rom.length ≤ 3584 →
      ∃ t, step s = .next t ∧ t.status = .running) ∧
    ∀ t, step s = .next t → t.status = .running → ∃ rom rest, s.agenda = .reset rom :: rest

/-- 60_exceptions.md R93, R102, 70_reset_and_hazards.md R117 (decision D23): the machine always goes on, but for a reset whose
image is longer than 3584 bytes, which is refused. -/
def Obligations.OnlyAnOversizeImageIsRefused : Prop :=
  ∀ s : State,
    (∀ rom rest, s.agenda = .reset rom :: rest → 3584 < rom.length → step s = .refused (.romTooLong rom.length)) ∧
    ((∀ rom rest, s.agenda = .reset rom :: rest → rom.length ≤ 3584) → ∃ t, step s = .next t)

/-- 30_encoding.md R56: `pc` after every instruction, after a step that raises an error (in fetch, decode or execution), and
after a step in Halted. -/
def Obligations.PcAfterEveryStep : Prop :=
  (∀ (i : Instr) (s t : State), s.status = .running → exec i s = .next t → t.status = .running → PcAfter s t i) ∧
  ∀ s t : State, cpuStep s = .next t → s.status ≠ .running ∨ t.status ≠ .running → t.pc = s.pc

/-- 10_state.md R10 (the owner table), R18, R19, 60_exceptions.md R105, R107: every instruction leaves every part of the state
unchanged but those listed for it. So only `Fx15` writes DT and only `Fx18` ST, no instruction writes a key, and none
writes the parameters or the agenda (the model's own fields, logs 3, 6, 7). -/
def Obligations.EveryInstructionWritesOnlyItsParts : Prop :=
  ∀ (i : Instr) (s t : State), exec i s = .next t → OnlyChanges (partsWritten i) s t

/-- 10_state.md R12: VF is written by the listed instructions as a side effect, and every other register only as a
destination. -/
def Obligations.EveryInstructionWritesOnlyItsRegisters : Prop :=
  ∀ (i : Instr) (s t : State), exec i s = .next t → ∀ r, writesReg r i = false → t.reg r = s.reg r

/-! ### Invariants -/

/-- The invariant of Safety.lean (memory's canonical form is the model's, log 8; the stack's capacity R15; the font's
immutability R32, R120; the bounds of R57; R102) is kept by every transition from every state that meets it. -/
def Obligations.EveryTransitionKeepsTheInvariant : Prop :=
  ∀ s t : State, s.Inv → step s = .next t → t.Inv

/-- The invariant holds at reset and at every power on, whatever the parameters. -/
def Obligations.ResetMeetsTheInvariant : Prop :=
  State.reset.Inv ∧ ∀ c : Config, (State.powerOn c).Inv

/-- 00_scope.md R4 (log 6): no transition of the machine, not even a reset, changes the parameters. -/
def Obligations.ParametersNeverChange : Prop :=
  ∀ s t : State, step s = .next t → t.cfg = s.cfg

/-- 20_memory.md R33 (log 8): memories in canonical form that read the same everywhere are the same data. -/
def Obligations.EqualReadsMeanEqualMemory : Prop :=
  ∀ (c : Config) (m n : Memory), Memory.wf c m = true → Memory.wf c n = true →
    (∀ a, Memory.read c m a = Memory.read c n a) → m = n

/-! ### Display -/

/-- 40_display.md R58, 20_memory.md R36 (D20 for the FrameReady event, log 7). -/
def Obligations.ClearUnsetsEveryPixel : Prop :=
  decodeWord 0x00E0 = some .cls ∧
  ∀ s : State, ∃ t, exec .cls s = .next t ∧ (∀ px py, t.pixel px py = false) ∧ t.frames = s.frames + 1 ∧
    t.pc = s.pc + 2 ∧ OnlyChanges [.disp, .frames, .pc] s t

/-- 40_display.md R59, 20_memory.md R35 (D19 for the bit order, D20 for FrameReady): a completed `Dxyn` inverts exactly the
pixels that the wrapped sprite covers with a 1 bit, and VF is 1 exactly when a set pixel became unset. -/
def Obligations.DrawInvertsTheSpritesPixels : Prop :=
  ∀ (x y n : Nibble) (s : State), s.CanRead n.toNat →
    ∃ t, exec (.drw x y n) s = .next t ∧
      (∀ px py, px < 64 → py < 32 → t.pixel px py = (s.pixel px py ^^ s.spriteBit x y n px py)) ∧
      (t.reg 0xF = 1 ∧ (∃ px < 64, ∃ py < 32, s.pixel px py = true ∧ t.pixel px py = false) ∨
        t.reg 0xF = 0 ∧ ∀ px < 64, ∀ py < 32, s.pixel px py = true → t.pixel px py = true) ∧
      t.frames = s.frames + 1 ∧ t.pc = s.pc + 2 ∧
      RegsKept [0xF] s t ∧ OnlyChanges [.v, .disp, .frames, .pc] s t

/-- 40_display.md R59, 60_exceptions.md R97 (D2): `Dxyn` fails at the first row outside memory and changes nothing else. -/
def Obligations.DrawOutOfRangeHalts : Prop :=
  ∀ (x y n : Nibble) (s : State) (r : Nat), s.cfg.addrPolicy = .fault → r < n.toNat →
    0xFFF < s.index.toNat + r → (∀ j, j < r → s.index.toNat + j ≤ 0xFFF) →
    ∃ t, exec (.drw x y n) s = .next t ∧ OnlyChanges [.status] s t ∧
      t.status = .halted ⟨.addressOutOfRange, s.pc, some (encode (.drw x y n)), some (s.index.toNat + r), none⟩

/-- 40_display.md R59 (its pseudocode), 90_conflicts.md C14: the same draw again restores every pixel; neither coordinate may
be VF, which the first draw writes. The second draw collides exactly when the sprite has a 1 bit over a pixel that was unset
before the first, so over an unset area exactly when the sprite has a 1 bit. (The last corner case of R59 leaves out the set
pixels: log 22.) -/
def Obligations.DrawingTwiceRestoresTheDisplay : Prop :=
  ∀ (x y n : Nibble) (s t u : State), s.CanRead n.toNat → x ≠ 0xF → y ≠ 0xF →
    exec (.drw x y n) s = .next t → exec (.drw x y n) t = .next u →
    (∀ px py, u.pixel px py = s.pixel px py) ∧
      (u.reg 0xF = 1 ∧ (∃ px < 64, ∃ py < 32, s.spriteBit x y n px py = true ∧ s.pixel px py = false) ∨
        u.reg 0xF = 0 ∧ ∀ px < 64, ∀ py < 32, s.spriteBit x y n px py = true → s.pixel px py = true) ∧
      ((∀ px < 64, ∀ py < 32, s.spriteBit x y n px py = true → s.pixel px py = false) →
        (u.reg 0xF = 1 ↔ ∃ r < n.toNat, s.byteAt (s.blockAddr r) ≠ 0))

/-! ### Control flow -/

/-- 41_control_flow.md R60, 60_exceptions.md R95: a return pops the last entry into `pc`; with an empty stack it halts the
block with `pc` and the word 0x00EE. That nothing but the status then changes is R102's (D16, log 10), where R60 names `pc`
and the stack; the shape of the record is R93's (D28, log 23). -/
def Obligations.ReturnPopsOrUnderflows : Prop :=
  decodeWord 0x00EE = some .ret ∧
  (∀ (s : State) (k : List Word) (v : Word), s.stack = k ++ [v] →
    ∃ t, exec .ret s = .next t ∧ t.pc = v ∧ t.stack = k ∧ OnlyChanges [.pc, .stack] s t) ∧
  ∀ s : State, s.stack = [] →
    ∃ t, exec .ret s = .next t ∧ OnlyChanges [.status] s t ∧
      t.status = .halted ⟨.stackUnderflow, s.pc, some 0x00EE, none, none⟩

/-- 41_control_flow.md R62, 10_state.md R15, 60_exceptions.md R96 (D3 for the depth and its overflow): a call pushes `pc + 2`
and jumps, or halts the block with a full stack and changes nothing else (D16, log 10; the record is D28's, log 23). The spec
speaks of a stack that holds exactly `STACK_DEPTH` entries; that one with more, which no state with the invariant has, halts
too is the model's choice (log 16). -/
def Obligations.CallPushesOrOverflows : Prop :=
  ∀ (nnn : Addr) (s : State), decodeWord (nibAddr 0x2 nnn) = some (.call nnn) ∧
    (s.stack.length < s.cfg.stackDepth →
      ∃ t, exec (.call nnn) s = .next t ∧ t.pc.toNat = nnn.toNat ∧ t.stack = s.stack ++ [s.pc + 2] ∧
        OnlyChanges [.pc, .stack] s t) ∧
    (s.cfg.stackDepth ≤ s.stack.length →
      ∃ t, exec (.call nnn) s = .next t ∧ OnlyChanges [.status] s t ∧
        t.status = .halted ⟨.stackOverflow, s.pc, some (nibAddr 0x2 nnn), none, none⟩)

/-- 41_control_flow.md R60 (its corner case), R62: a return after a call continues behind the call with the caller's stack. -/
def Obligations.ReturnAfterCallContinuesBehindIt : Prop :=
  ∀ (nnn : Addr) (s t : State), s.stack.length < s.cfg.stackDepth → exec (.call nnn) s = .next t →
    ∃ u, exec .ret t = .next u ∧ u.pc = s.pc + 2 ∧ u.stack = s.stack ∧ OnlyChanges [.pc] s u

/-- 41_control_flow.md R61, R67: a jump goes to `nnn`, an indexed jump to `V0 + nnn` unreduced to 12 bits. -/
def Obligations.JumpsSetPcOnly : Prop :=
  ∀ (nnn : Addr) (s : State),
    decodeWord (nibAddr 0x1 nnn) = some (.jp nnn) ∧ decodeWord (nibAddr 0xB nnn) = some (.jpV0 nnn) ∧
    (∃ t, exec (.jp nnn) s = .next t ∧ t.pc.toNat = nnn.toNat ∧ OnlyChanges [.pc] s t) ∧
    ∃ t, exec (.jpV0 nnn) s = .next t ∧ t.pc.toNat = (s.reg 0).toNat + nnn.toNat ∧ OnlyChanges [.pc] s t

/-- 41_control_flow.md R63, R64: the skips on a byte, at every operand; sums of `pc` are modulo 2^16 (R57). -/
def Obligations.ByteSkipsAdvanceByTwoOrFour : Prop :=
  ∀ (x : Nibble) (nn : Byte) (s : State),
    decodeWord (nibByte 0x3 x nn) = some (.seByte x nn) ∧ decodeWord (nibByte 0x4 x nn) = some (.sneByte x nn) ∧
    (∃ t, exec (.seByte x nn) s = .next t ∧ OnlyChanges [.pc] s t ∧
      t.pc.toNat = (s.pc.toNat + if (s.reg x).toNat = nn.toNat then 4 else 2) % 65536) ∧
    ∃ t, exec (.sneByte x nn) s = .next t ∧ OnlyChanges [.pc] s t ∧
      t.pc.toNat = (s.pc.toNat + if (s.reg x).toNat = nn.toNat then 2 else 4) % 65536

/-- 41_control_flow.md R65, R66: the skips on a register; with `x = y` the first always skips and the second never. -/
def Obligations.RegisterSkipsAdvanceByTwoOrFour : Prop :=
  ∀ (x y : Nibble) (s : State),
    decodeWord (nibbles 0x5 x y 0x0) = some (.seReg x y) ∧ decodeWord (nibbles 0x9 x y 0x0) = some (.sneReg x y) ∧
    (∃ t, exec (.seReg x y) s = .next t ∧ OnlyChanges [.pc] s t ∧
      t.pc.toNat = (s.pc.toNat + if (s.reg x).toNat = (s.reg y).toNat then 4 else 2) % 65536) ∧
    ∃ t, exec (.sneReg x y) s = .next t ∧ OnlyChanges [.pc] s t ∧
      t.pc.toNat = (s.pc.toNat + if (s.reg x).toNat = (s.reg y).toNat then 2 else 4) % 65536

/-! ### Registers and ALU -/

/-- 42_alu.md R69, R70, R71: the load of a byte, the addition of a byte modulo 256 with no flag, the move. VF changes only
as the destination. -/
def Obligations.LoadsMovesAndByteSums : Prop :=
  ∀ (x y : Nibble) (nn : Byte) (s : State),
    decodeWord (nibByte 0x6 x nn) = some (.ldByte x nn) ∧ decodeWord (nibByte 0x7 x nn) = some (.addByte x nn) ∧
    decodeWord (nibbles 0x8 x y 0x0) = some (.ldReg x y) ∧
    (∃ t, exec (.ldByte x nn) s = .next t ∧ t.reg x = nn ∧ t.pc = s.pc + 2 ∧
      RegsKept [x] s t ∧ OnlyChanges [.v, .pc] s t) ∧
    (∃ t, exec (.addByte x nn) s = .next t ∧ (t.reg x).toNat = ((s.reg x).toNat + nn.toNat) % 256 ∧
      t.pc = s.pc + 2 ∧ RegsKept [x] s t ∧ OnlyChanges [.v, .pc] s t) ∧
    ∃ t, exec (.ldReg x y) s = .next t ∧ t.reg x = s.reg y ∧ t.pc = s.pc + 2 ∧
      RegsKept [x] s t ∧ OnlyChanges [.v, .pc] s t

/-- 42_alu.md R72, R73, R74: the logical operations bit by bit; VF is written only as the destination. -/
def Obligations.LogicalOperationsWorkBitByBit : Prop :=
  ∀ (x y : Nibble) (s : State),
    decodeWord (nibbles 0x8 x y 0x1) = some (.orReg x y) ∧ decodeWord (nibbles 0x8 x y 0x2) = some (.andReg x y) ∧
    decodeWord (nibbles 0x8 x y 0x3) = some (.xorReg x y) ∧
    (∃ t, exec (.orReg x y) s = .next t ∧ t.pc = s.pc + 2 ∧ RegsKept [x] s t ∧ OnlyChanges [.v, .pc] s t ∧
      ∀ j, j < 8 → (t.reg x).getLsbD j = ((s.reg x).getLsbD j || (s.reg y).getLsbD j)) ∧
    (∃ t, exec (.andReg x y) s = .next t ∧ t.pc = s.pc + 2 ∧ RegsKept [x] s t ∧ OnlyChanges [.v, .pc] s t ∧
      ∀ j, j < 8 → (t.reg x).getLsbD j = ((s.reg x).getLsbD j && (s.reg y).getLsbD j)) ∧
    ∃ t, exec (.xorReg x y) s = .next t ∧ t.pc = s.pc + 2 ∧ RegsKept [x] s t ∧ OnlyChanges [.v, .pc] s t ∧
      ∀ j, j < 8 → (t.reg x).getLsbD j = ((s.reg x).getLsbD j ^^ (s.reg y).getLsbD j)

/-- 42_alu.md R75: the sum modulo 256, VF the carry. With `x` = 0xF the sum is the final VF (decision D5, C11). -/
def Obligations.AddSetsCarry : Prop :=
  ∀ (x y : Nibble) (s : State), decodeWord (nibbles 0x8 x y 0x4) = some (.addReg x y) ∧
    ∃ t, exec (.addReg x y) s = .next t ∧ (t.reg x).toNat = ((s.reg x).toNat + (s.reg y).toNat) % 256 ∧
      (x ≠ 0xF → t.reg 0xF = if (s.reg x).toNat + (s.reg y).toNat > 255 then 1 else 0) ∧
      t.pc = s.pc + 2 ∧ RegsKept [x, 0xF] s t ∧ OnlyChanges [.v, .pc] s t

/-- 42_alu.md R76, R78: the differences modulo 256, VF the NOT borrow on unsigned values (D6). With `x` = 0xF the flag is the
final VF (D5). -/
def Obligations.SubtractionsSetNotBorrow : Prop :=
  ∀ (x y : Nibble) (s : State),
    decodeWord (nibbles 0x8 x y 0x5) = some (.sub x y) ∧ decodeWord (nibbles 0x8 x y 0x7) = some (.subn x y) ∧
    (∃ t, exec (.sub x y) s = .next t ∧
      (x ≠ 0xF → ((t.reg x).toNat : Int) = ((s.reg x).toNat - (s.reg y).toNat : Int) % 256) ∧
      (t.reg 0xF = if (s.reg y).toNat ≤ (s.reg x).toNat then 1 else 0) ∧
      t.pc = s.pc + 2 ∧ RegsKept [x, 0xF] s t ∧ OnlyChanges [.v, .pc] s t) ∧
    ∃ t, exec (.subn x y) s = .next t ∧
      (x ≠ 0xF → ((t.reg x).toNat : Int) = ((s.reg y).toNat - (s.reg x).toNat : Int) % 256) ∧
      (t.reg 0xF = if (s.reg x).toNat ≤ (s.reg y).toNat then 1 else 0) ∧
      t.pc = s.pc + 2 ∧ RegsKept [x, 0xF] s t ∧ OnlyChanges [.v, .pc] s t

/-- 42_alu.md R77, R79 (D7 for the sources): the right shift reads `V[y]`, the left shift `V[x]`, and VF is the bit shifted
out. With `x` = 0xF the result is the final VF (D5). -/
def Obligations.ShiftsMoveOneBitIntoVf : Prop :=
  ∀ (x y : Nibble) (s : State),
    decodeWord (nibbles 0x8 x y 0x6) = some (.shr x y) ∧ decodeWord (nibbles 0x8 x y 0xE) = some (.shl x y) ∧
    (∃ t, exec (.shr x y) s = .next t ∧ (t.reg x).toNat = (s.reg y).toNat / 2 ∧
      (x ≠ 0xF → (t.reg 0xF).toNat = (s.reg y).toNat % 2) ∧
      t.pc = s.pc + 2 ∧ RegsKept [x, 0xF] s t ∧ OnlyChanges [.v, .pc] s t) ∧
    ∃ t, exec (.shl x y) s = .next t ∧ (t.reg x).toNat = (s.reg x).toNat * 2 % 256 ∧
      (x ≠ 0xF → (t.reg 0xF).toNat = (s.reg x).toNat / 128) ∧
      t.pc = s.pc + 2 ∧ RegsKept [x, 0xF] s t ∧ OnlyChanges [.v, .pc] s t

/-- 42_alu.md R80 (D24): some byte, masked by `nn`: the free value of log 1, which is used up. -/
def Obligations.RandomIsAFreeByteUnderTheMask : Prop :=
  ∀ (x : Nibble) (nn : Byte) (s : State), decodeWord (nibByte 0xC x nn) = some (.rnd x nn) ∧
    ∃ t, exec (.rnd x nn) s = .next t ∧
      (∀ j, j < 8 → (t.reg x).getLsbD j = ((Config.randomByte s.draws).getLsbD j && nn.getLsbD j)) ∧
      t.draws = s.draws + 1 ∧ t.pc = s.pc + 2 ∧ RegsKept [x] s t ∧ OnlyChanges [.v, .pc, .draws] s t

/-! ### Index register, loads and stores -/

/-- 43_index_memory.md R81, R82 (D11), R83 (D8), 10_state.md R14: `I` is loaded, summed modulo 2^16 with no flag, or set to
five times a byte, and is never checked. -/
def Obligations.IndexIsSetUnchecked : Prop :=
  ∀ (nnn : Addr) (x : Nibble) (s : State),
    decodeWord (nibAddr 0xA nnn) = some (.ldI nnn) ∧ decodeWord (nibByte 0xF x 0x1E) = some (.addIVx x) ∧
    decodeWord (nibByte 0xF x 0x29) = some (.ldFVx x) ∧
    (∃ t, exec (.ldI nnn) s = .next t ∧ t.index.toNat = nnn.toNat ∧ t.pc = s.pc + 2 ∧
      OnlyChanges [.index, .pc] s t) ∧
    (∃ t, exec (.addIVx x) s = .next t ∧ t.index.toNat = (s.index.toNat + (s.reg x).toNat) % 65536 ∧
      t.pc = s.pc + 2 ∧ OnlyChanges [.index, .pc] s t) ∧
    ∃ t, exec (.ldFVx x) s = .next t ∧ t.index.toNat = (s.reg x).toNat * 5 ∧ t.pc = s.pc + 2 ∧
      OnlyChanges [.index, .pc] s t

/-- 20_memory.md R26, R27, 43_index_memory.md R83: where the font cannot be written, `Fx29` on a digit addresses that digit's
glyph, in every state that meets the invariant. -/
def Obligations.FontAddressFindsTheGlyph : Prop :=
  ∀ (x : Nibble) (s : State) (d : Fin 16), s.Inv → s.cfg.fontWritePolicy = .fault → (s.reg x).toNat = d.val →
    ∃ t, exec (.ldFVx x) s = .next t ∧ ∀ k : Fin 5, t.byteAt (t.index.toNat + k.val) = (s.cfg.font.get d).get k

/-- 43_index_memory.md R84, 20_memory.md R32: the three decimal digits at `I`, `I + 1`, `I + 2`; no other byte changes. The
canonical form of memory (log 8) is what makes a read after a write meaningful. -/
def Obligations.BcdStoresThreeDigits : Prop :=
  ∀ (x : Nibble) (s : State), Memory.wf s.cfg s.mem = true → s.CanWrite 3 →
    s.writeBlock 3 = .ok (s.blockAddrs 3) ∧
    ∃ t, exec (.ldBVx x) s = .next t ∧
      (t.byteAt (s.blockAddr 0)).toNat = (s.reg x).toNat / 100 ∧
      (t.byteAt (s.blockAddr 1)).toNat = (s.reg x).toNat / 10 % 10 ∧
      (t.byteAt (s.blockAddr 2)).toNat = (s.reg x).toNat % 10 ∧
      BytesKept (s.blockAddrs 3) s t ∧ t.pc = s.pc + 2 ∧ OnlyChanges [.mem, .pc] s t

/-- 43_index_memory.md R85: V0..Vx at `I`, and then `I + x + 1` modulo 2^16; no other byte changes. -/
def Obligations.StoreWritesTheRegisterBlock : Prop :=
  ∀ (x : Nibble) (s : State), Memory.wf s.cfg s.mem = true → s.CanWrite (x.toNat + 1) →
    s.writeBlock (x.toNat + 1) = .ok (s.blockAddrs (x.toNat + 1)) ∧
    ∃ t, exec (.ldMemVx x) s = .next t ∧
      (∀ r : Nibble, r.toNat ≤ x.toNat → t.byteAt (s.blockAddr r.toNat) = s.reg r) ∧
      BytesKept (s.blockAddrs (x.toNat + 1)) s t ∧
      t.index.toNat = (s.index.toNat + x.toNat + 1) % 65536 ∧ t.pc = s.pc + 2 ∧
      OnlyChanges [.mem, .index, .pc] s t

/-- 43_index_memory.md R86: V0..Vx from `I`, and then `I + x + 1` modulo 2^16; no other register changes. -/
def Obligations.LoadReadsTheRegisterBlock : Prop :=
  ∀ (x : Nibble) (s : State), s.CanRead (x.toNat + 1) →
    ∃ t, exec (.ldVxMem x) s = .next t ∧
      (∀ r : Nibble, r.toNat ≤ x.toNat → t.reg r = s.byteAt (s.blockAddr r.toNat)) ∧
      (∀ r : Nibble, x.toNat < r.toNat → t.reg r = s.reg r) ∧
      t.index.toNat = (s.index.toNat + x.toNat + 1) % 65536 ∧ t.pc = s.pc + 2 ∧
      OnlyChanges [.v, .index, .pc] s t

/-- 90_conflicts.md C15, 43_index_memory.md R85, R86: a load from the address a store went to gives back the registers, and
both leave `I` at the same value. -/
def Obligations.LoadAfterStoreRestoresRegisters : Prop :=
  ∀ (x : Nibble) (s t u : State), Memory.wf s.cfg s.mem = true → s.CanWrite (x.toNat + 1) →
    exec (.ldMemVx x) s = .next t → u.index = s.index → OnlyChanges [.v, .index, .pc] t u →
    ∃ w, exec (.ldVxMem x) u = .next w ∧ (∀ r : Nibble, r.toNat ≤ x.toNat → w.reg r = s.reg r) ∧ w.index = t.index

/-- 60_exceptions.md R97, R98, R101, 20_memory.md R32, R41 (D2, D14, D27): a block store that fails does so at its first bad
address, out of range before in the font, with nothing written. The block is three bytes for `Fx33` and `x + 1` for `Fx55`. -/
def Obligations.FailingStoresWriteNothing : Prop :=
  ∀ (x : Nibble) (i : Instr) (n k : Nat) (s : State),
    (i = .ldBVx x ∧ n = 3 ∨ i = .ldMemVx x ∧ n = x.toNat + 1) → k < n →
    (∀ j, j < k → s.InRange j ∧ s.OffFont j) →
    (¬ s.InRange k →
      ∃ t, exec i s = .next t ∧ OnlyChanges [.status] s t ∧
        t.status = .halted ⟨.addressOutOfRange, s.pc, some (encode i), some (s.index.toNat + k), none⟩) ∧
    (s.InRange k → ¬ s.OffFont k →
      ∃ t, exec i s = .next t ∧ OnlyChanges [.status] s t ∧
        t.status = .halted ⟨.fontWrite, s.pc, some (encode i), some (s.blockAddr k), none⟩)

/-- 43_index_memory.md R86, 60_exceptions.md R97 (D2): a block load that leaves memory changes no register. -/
def Obligations.LoadOutOfRangeHalts : Prop :=
  ∀ (x : Nibble) (s : State) (k : Nat), s.cfg.addrPolicy = .fault → k ≤ x.toNat → 0xFFF < s.index.toNat + k →
    (∀ j, j < k → s.index.toNat + j ≤ 0xFFF) →
    ∃ t, exec (.ldVxMem x) s = .next t ∧ OnlyChanges [.status] s t ∧
      t.status = .halted ⟨.addressOutOfRange, s.pc, some (encode (.ldVxMem x)), some (s.index.toNat + k), none⟩

/-- 20_memory.md R45, 70_reset_and_hazards.md R120: a store over the next instruction is what the next step executes. The
store is of V0 and V1 at `pc + 2`, inside program memory. -/
def Obligations.StoredInstructionRunsNext : Prop :=
  ∀ (s t : State) (i : Instr), Memory.wf s.cfg s.mem = true → s.status = .running → s.agenda = [] →
    0x200 ≤ s.pc.toNat → s.pc.toNat + 3 ≤ 0xFFF → s.index = s.pc + 2 →
    exec (.ldMemVx 1) s = .next t → decode [s.reg 0, s.reg 1] = .ok (i, []) → step t = exec i t

/-! ### Input -/

/-- 44_input.md R87, R88, 20_memory.md R38 (D9 for `low_nibble`): the skips on a key's level, for every key number that
`KeyIndex` maps. -/
def Obligations.KeySkipsTestTheLevel : Prop :=
  ∀ (x : Nibble) (s : State), (s.reg x).toNat ≤ 0xF ∨ s.cfg.keyPolicy = .lowNibble →
    decodeWord (nibByte 0xE x 0x9E) = some (.skp x) ∧ decodeWord (nibByte 0xE x 0xA1) = some (.sknp x) ∧
    ∃ k : Nibble, k.toNat = (s.reg x).toNat % 16 ∧
      (∃ t, exec (.skp x) s = .next t ∧ OnlyChanges [.pc] s t ∧
        t.pc.toNat = (s.pc.toNat + if s.keyPressed k then 4 else 2) % 65536) ∧
      ∃ t, exec (.sknp x) s = .next t ∧ OnlyChanges [.pc] s t ∧
        t.pc.toNat = (s.pc.toNat + if s.keyPressed k then 2 else 4) % 65536

/-- 60_exceptions.md R99, 44_input.md R87, R88 (D9): a key number above 0xF halts the block with the register's value. -/
def Obligations.KeyNumberAboveFifteenHalts : Prop :=
  ∀ (x : Nibble) (i : Instr) (s : State), i = .skp x ∨ i = .sknp x → s.cfg.keyPolicy = .fault →
    0xF < (s.reg x).toNat →
    ∃ t, exec i s = .next t ∧ OnlyChanges [.status] s t ∧
      t.status = .halted ⟨.invalidKey, s.pc, some (encode i), none, some (s.reg x)⟩

/-- 44_input.md R89, 20_memory.md R38 (D10; the choice among several keys is the free value of log 2): with no key pressed
nothing at all changes; otherwise `V[x]` is one of the pressed keys. -/
def Obligations.KeyWaitTakesAPressedKey : Prop :=
  ∀ (x : Nibble) (s : State), decodeWord (nibByte 0xF x 0x0A) = some (.ldVxK x) ∧
    ((∀ k, s.keyPressed k = false) → exec (.ldVxK x) s = .next s) ∧
    ((∃ k, s.keyPressed k = true) →
      ∃ t k, exec (.ldVxK x) s = .next t ∧ s.keyPressed k = true ∧ (t.reg x).toNat = k.toNat ∧ t.pc = s.pc + 2 ∧
        RegsKept [x] s t ∧ OnlyChanges [.v, .pc, .draws] s t)

/-! ### Timers -/

/-- 45_timers.md R90, R91, R92, 20_memory.md R39: the reads and writes of the timers. -/
def Obligations.TimersMoveToAndFromRegisters : Prop :=
  ∀ (x : Nibble) (s : State),
    decodeWord (nibByte 0xF x 0x07) = some (.ldVxDt x) ∧ decodeWord (nibByte 0xF x 0x15) = some (.ldDtVx x) ∧
    decodeWord (nibByte 0xF x 0x18) = some (.ldStVx x) ∧
    (∃ t, exec (.ldVxDt x) s = .next t ∧ t.reg x = s.dt ∧ t.pc = s.pc + 2 ∧ RegsKept [x] s t ∧
      OnlyChanges [.v, .pc] s t) ∧
    (∃ t, exec (.ldDtVx x) s = .next t ∧ t.dt = s.reg x ∧ t.pc = s.pc + 2 ∧ OnlyChanges [.dt, .pc] s t) ∧
    ∃ t, exec (.ldStVx x) s = .next t ∧ t.st = s.reg x ∧ t.pc = s.pc + 2 ∧ OnlyChanges [.st, .pc] s t

/-- 60_exceptions.md R106, 10_state.md R18: a tick counts both timers down to 0 and no further, running or halted. That it
comes as an entry of the agenda is the model's (log 3). -/
def Obligations.TickCountsBothTimersDown : Prop :=
  ∀ (s : State) (rest : List HostEvent), s.agenda = .tick :: rest →
    ∃ t, step s = .next t ∧ t.dt.toNat = s.dt.toNat - 1 ∧ t.st.toNat = s.st.toNat - 1 ∧ t.agenda = rest ∧
      OnlyChanges [.dt, .st, .agenda] s t

/-! ### The host -/

/-- 60_exceptions.md R107: a key change sets that key's level and nothing else. That it comes as an entry of the agenda is
the model's (log 3). -/
def Obligations.KeyChangeSetsOneLevel : Prop :=
  ∀ (s : State) (k : Nibble) (p : Bool) (rest : List HostEvent), s.agenda = .key k p :: rest →
    ∃ t, step s = .next t ∧ t.keyPressed k = p ∧ (∀ j, j ≠ k → t.keyPressed j = s.keyPressed j) ∧ t.agenda = rest ∧
      OnlyChanges [.keys, .agenda] s t

/-- 10_state.md R23, 70_reset_and_hazards.md R115–R117 (D12 for every value but V, `pc` and the font): the state after a reset
with an image that fits, from any state. The reset is the host's event, which the transition `step` performs as the agenda's
first entry (log 3). What becomes of the model's own fields is the model's (log 24). -/
def Obligations.ResetPlacesFontAndImage : Prop :=
  ∀ (s : State) (rom : List Byte) (rest : List HostEvent), s.agenda = .reset rom :: rest → rom.length ≤ 3584 →
    ∃ t, step s = .next t ∧ (s.setAgenda rest).hostReset rom = .next t ∧
      t.pc = 0x200 ∧ t.index = 0 ∧ t.stack = [] ∧ t.dt = 0 ∧ t.st = 0 ∧
      t.status = .running ∧ (∀ r, t.reg r = 0) ∧ (∀ k, t.keyPressed k = false) ∧ (∀ px py, t.pixel px py = false) ∧
      (∀ (d : Fin 16) (k : Fin 5), t.byteAt (5 * d.val + k.val) = (s.cfg.font.get d).get k) ∧
      (∀ a, 0x50 ≤ a → a < 0x200 → t.byteAt a = 0) ∧
      (∀ j, j < 3584 → t.byteAt (0x200 + j) = rom.getD j 0) ∧
      t.cfg = s.cfg ∧ t.frames = 0 ∧ t.draws = s.draws ∧ t.agenda = rest

/-- 60_exceptions.md R114 (D31): a parked block stays parked: every later step of the CPU leaves its whole state unchanged. -/
def Obligations.ParkedStateIsFinal : Prop :=
  ∀ s : State, s.parked = true → s.agenda = [] → ∀ n, Sys2Proof.core.run n s = .next s

/-- The model's own load (log 4): a legal row's word placed by `withFetchWord` is what the next transition executes, from any
state whose memory is canonical. -/
def Obligations.PlacedWordRunsNext : Prop :=
  ∀ (s : State) (i : Instr), Memory.wf s.cfg s.mem = true →
    step (s.withFetchWord 16 (encode i).toNat) = exec i (s.withFetchWord 16 (encode i).toNat)
end

