-- ==== Sys2Proof/Laws/State.lean ====
section
/-! SUPPORT. What every update of the state does to every field and to every reading of one, each true by definition. -/

namespace Sys2Proof.Machine

/-! ### setPc -/

@[simp] theorem State.setPc_v (s : State) (p : Word) : (s.setPc p).v = s.v := rfl
@[simp] theorem State.setPc_pc (s : State) (p : Word) : (s.setPc p).pc = p := rfl
@[simp] theorem State.setPc_index (s : State) (p : Word) : (s.setPc p).index = s.index := rfl
@[simp] theorem State.setPc_stack (s : State) (p : Word) : (s.setPc p).stack = s.stack := rfl
@[simp] theorem State.setPc_mem (s : State) (p : Word) : (s.setPc p).mem = s.mem := rfl
@[simp] theorem State.setPc_disp (s : State) (p : Word) : (s.setPc p).disp = s.disp := rfl
@[simp] theorem State.setPc_dt (s : State) (p : Word) : (s.setPc p).dt = s.dt := rfl
@[simp] theorem State.setPc_st (s : State) (p : Word) : (s.setPc p).st = s.st := rfl
@[simp] theorem State.setPc_keys (s : State) (p : Word) : (s.setPc p).keys = s.keys := rfl
@[simp] theorem State.setPc_status (s : State) (p : Word) : (s.setPc p).status = s.status := rfl
@[simp] theorem State.setPc_cfg (s : State) (p : Word) : (s.setPc p).cfg = s.cfg := rfl
@[simp] theorem State.setPc_frames (s : State) (p : Word) : (s.setPc p).frames = s.frames := rfl
@[simp] theorem State.setPc_draws (s : State) (p : Word) : (s.setPc p).draws = s.draws := rfl
@[simp] theorem State.setPc_agenda (s : State) (p : Word) : (s.setPc p).agenda = s.agenda := rfl
@[simp] theorem State.setPc_reg (s : State) (p : Word) (x : Nibble) : (s.setPc p).reg x = s.reg x := rfl
@[simp] theorem State.setPc_keyPressed (s : State) (p : Word) (j : Nibble) : (s.setPc p).keyPressed j = s.keyPressed j := rfl
@[simp] theorem State.setPc_byteAt (s : State) (p : Word) (z : Nat) : (s.setPc p).byteAt z = s.byteAt z := rfl
@[simp] theorem State.setPc_pixel (s : State) (p : Word) (px py : Nat) : (s.setPc p).pixel px py = s.pixel px py := rfl

/-! ### setIndex -/

@[simp] theorem State.setIndex_v (s : State) (a : Word) : (s.setIndex a).v = s.v := rfl
@[simp] theorem State.setIndex_pc (s : State) (a : Word) : (s.setIndex a).pc = s.pc := rfl
@[simp] theorem State.setIndex_index (s : State) (a : Word) : (s.setIndex a).index = a := rfl
@[simp] theorem State.setIndex_stack (s : State) (a : Word) : (s.setIndex a).stack = s.stack := rfl
@[simp] theorem State.setIndex_mem (s : State) (a : Word) : (s.setIndex a).mem = s.mem := rfl
@[simp] theorem State.setIndex_disp (s : State) (a : Word) : (s.setIndex a).disp = s.disp := rfl
@[simp] theorem State.setIndex_dt (s : State) (a : Word) : (s.setIndex a).dt = s.dt := rfl
@[simp] theorem State.setIndex_st (s : State) (a : Word) : (s.setIndex a).st = s.st := rfl
@[simp] theorem State.setIndex_keys (s : State) (a : Word) : (s.setIndex a).keys = s.keys := rfl
@[simp] theorem State.setIndex_status (s : State) (a : Word) : (s.setIndex a).status = s.status := rfl
@[simp] theorem State.setIndex_cfg (s : State) (a : Word) : (s.setIndex a).cfg = s.cfg := rfl
@[simp] theorem State.setIndex_frames (s : State) (a : Word) : (s.setIndex a).frames = s.frames := rfl
@[simp] theorem State.setIndex_draws (s : State) (a : Word) : (s.setIndex a).draws = s.draws := rfl
@[simp] theorem State.setIndex_agenda (s : State) (a : Word) : (s.setIndex a).agenda = s.agenda := rfl
@[simp] theorem State.setIndex_reg (s : State) (a : Word) (x : Nibble) : (s.setIndex a).reg x = s.reg x := rfl
@[simp] theorem State.setIndex_keyPressed (s : State) (a : Word) (j : Nibble) : (s.setIndex a).keyPressed j = s.keyPressed j := rfl
@[simp] theorem State.setIndex_byteAt (s : State) (a : Word) (z : Nat) : (s.setIndex a).byteAt z = s.byteAt z := rfl
@[simp] theorem State.setIndex_pixel (s : State) (a : Word) (px py : Nat) : (s.setIndex a).pixel px py = s.pixel px py := rfl

/-! ### setStack -/

@[simp] theorem State.setStack_v (s : State) (k : List Word) : (s.setStack k).v = s.v := rfl
@[simp] theorem State.setStack_pc (s : State) (k : List Word) : (s.setStack k).pc = s.pc := rfl
@[simp] theorem State.setStack_index (s : State) (k : List Word) : (s.setStack k).index = s.index := rfl
@[simp] theorem State.setStack_stack (s : State) (k : List Word) : (s.setStack k).stack = k := rfl
@[simp] theorem State.setStack_mem (s : State) (k : List Word) : (s.setStack k).mem = s.mem := rfl
@[simp] theorem State.setStack_disp (s : State) (k : List Word) : (s.setStack k).disp = s.disp := rfl
@[simp] theorem State.setStack_dt (s : State) (k : List Word) : (s.setStack k).dt = s.dt := rfl
@[simp] theorem State.setStack_st (s : State) (k : List Word) : (s.setStack k).st = s.st := rfl
@[simp] theorem State.setStack_keys (s : State) (k : List Word) : (s.setStack k).keys = s.keys := rfl
@[simp] theorem State.setStack_status (s : State) (k : List Word) : (s.setStack k).status = s.status := rfl
@[simp] theorem State.setStack_cfg (s : State) (k : List Word) : (s.setStack k).cfg = s.cfg := rfl
@[simp] theorem State.setStack_frames (s : State) (k : List Word) : (s.setStack k).frames = s.frames := rfl
@[simp] theorem State.setStack_draws (s : State) (k : List Word) : (s.setStack k).draws = s.draws := rfl
@[simp] theorem State.setStack_agenda (s : State) (k : List Word) : (s.setStack k).agenda = s.agenda := rfl
@[simp] theorem State.setStack_reg (s : State) (k : List Word) (x : Nibble) : (s.setStack k).reg x = s.reg x := rfl
@[simp] theorem State.setStack_keyPressed (s : State) (k : List Word) (j : Nibble) : (s.setStack k).keyPressed j = s.keyPressed j := rfl
@[simp] theorem State.setStack_byteAt (s : State) (k : List Word) (z : Nat) : (s.setStack k).byteAt z = s.byteAt z := rfl
@[simp] theorem State.setStack_pixel (s : State) (k : List Word) (px py : Nat) : (s.setStack k).pixel px py = s.pixel px py := rfl

/-! ### setMem -/

@[simp] theorem State.setMem_v (s : State) (m : Memory) : (s.setMem m).v = s.v := rfl
@[simp] theorem State.setMem_pc (s : State) (m : Memory) : (s.setMem m).pc = s.pc := rfl
@[simp] theorem State.setMem_index (s : State) (m : Memory) : (s.setMem m).index = s.index := rfl
@[simp] theorem State.setMem_stack (s : State) (m : Memory) : (s.setMem m).stack = s.stack := rfl
@[simp] theorem State.setMem_mem (s : State) (m : Memory) : (s.setMem m).mem = m := rfl
@[simp] theorem State.setMem_disp (s : State) (m : Memory) : (s.setMem m).disp = s.disp := rfl
@[simp] theorem State.setMem_dt (s : State) (m : Memory) : (s.setMem m).dt = s.dt := rfl
@[simp] theorem State.setMem_st (s : State) (m : Memory) : (s.setMem m).st = s.st := rfl
@[simp] theorem State.setMem_keys (s : State) (m : Memory) : (s.setMem m).keys = s.keys := rfl
@[simp] theorem State.setMem_status (s : State) (m : Memory) : (s.setMem m).status = s.status := rfl
@[simp] theorem State.setMem_cfg (s : State) (m : Memory) : (s.setMem m).cfg = s.cfg := rfl
@[simp] theorem State.setMem_frames (s : State) (m : Memory) : (s.setMem m).frames = s.frames := rfl
@[simp] theorem State.setMem_draws (s : State) (m : Memory) : (s.setMem m).draws = s.draws := rfl
@[simp] theorem State.setMem_agenda (s : State) (m : Memory) : (s.setMem m).agenda = s.agenda := rfl
@[simp] theorem State.setMem_reg (s : State) (m : Memory) (x : Nibble) : (s.setMem m).reg x = s.reg x := rfl
@[simp] theorem State.setMem_keyPressed (s : State) (m : Memory) (j : Nibble) : (s.setMem m).keyPressed j = s.keyPressed j := rfl
@[simp] theorem State.setMem_pixel (s : State) (m : Memory) (px py : Nat) : (s.setMem m).pixel px py = s.pixel px py := rfl

/-! ### setDisp -/

@[simp] theorem State.setDisp_v (s : State) (d : Surface) : (s.setDisp d).v = s.v := rfl
@[simp] theorem State.setDisp_pc (s : State) (d : Surface) : (s.setDisp d).pc = s.pc := rfl
@[simp] theorem State.setDisp_index (s : State) (d : Surface) : (s.setDisp d).index = s.index := rfl
@[simp] theorem State.setDisp_stack (s : State) (d : Surface) : (s.setDisp d).stack = s.stack := rfl
@[simp] theorem State.setDisp_mem (s : State) (d : Surface) : (s.setDisp d).mem = s.mem := rfl
@[simp] theorem State.setDisp_disp (s : State) (d : Surface) : (s.setDisp d).disp = d := rfl
@[simp] theorem State.setDisp_dt (s : State) (d : Surface) : (s.setDisp d).dt = s.dt := rfl
@[simp] theorem State.setDisp_st (s : State) (d : Surface) : (s.setDisp d).st = s.st := rfl
@[simp] theorem State.setDisp_keys (s : State) (d : Surface) : (s.setDisp d).keys = s.keys := rfl
@[simp] theorem State.setDisp_status (s : State) (d : Surface) : (s.setDisp d).status = s.status := rfl
@[simp] theorem State.setDisp_cfg (s : State) (d : Surface) : (s.setDisp d).cfg = s.cfg := rfl
@[simp] theorem State.setDisp_frames (s : State) (d : Surface) : (s.setDisp d).frames = s.frames := rfl
@[simp] theorem State.setDisp_draws (s : State) (d : Surface) : (s.setDisp d).draws = s.draws := rfl
@[simp] theorem State.setDisp_agenda (s : State) (d : Surface) : (s.setDisp d).agenda = s.agenda := rfl
@[simp] theorem State.setDisp_reg (s : State) (d : Surface) (x : Nibble) : (s.setDisp d).reg x = s.reg x := rfl
@[simp] theorem State.setDisp_keyPressed (s : State) (d : Surface) (j : Nibble) : (s.setDisp d).keyPressed j = s.keyPressed j := rfl
@[simp] theorem State.setDisp_byteAt (s : State) (d : Surface) (z : Nat) : (s.setDisp d).byteAt z = s.byteAt z := rfl

/-! ### setDT -/

@[simp] theorem State.setDT_v (s : State) (b : Byte) : (s.setDT b).v = s.v := rfl
@[simp] theorem State.setDT_pc (s : State) (b : Byte) : (s.setDT b).pc = s.pc := rfl
@[simp] theorem State.setDT_index (s : State) (b : Byte) : (s.setDT b).index = s.index := rfl
@[simp] theorem State.setDT_stack (s : State) (b : Byte) : (s.setDT b).stack = s.stack := rfl
@[simp] theorem State.setDT_mem (s : State) (b : Byte) : (s.setDT b).mem = s.mem := rfl
@[simp] theorem State.setDT_disp (s : State) (b : Byte) : (s.setDT b).disp = s.disp := rfl
@[simp] theorem State.setDT_dt (s : State) (b : Byte) : (s.setDT b).dt = b := rfl
@[simp] theorem State.setDT_st (s : State) (b : Byte) : (s.setDT b).st = s.st := rfl
@[simp] theorem State.setDT_keys (s : State) (b : Byte) : (s.setDT b).keys = s.keys := rfl
@[simp] theorem State.setDT_status (s : State) (b : Byte) : (s.setDT b).status = s.status := rfl
@[simp] theorem State.setDT_cfg (s : State) (b : Byte) : (s.setDT b).cfg = s.cfg := rfl
@[simp] theorem State.setDT_frames (s : State) (b : Byte) : (s.setDT b).frames = s.frames := rfl
@[simp] theorem State.setDT_draws (s : State) (b : Byte) : (s.setDT b).draws = s.draws := rfl
@[simp] theorem State.setDT_agenda (s : State) (b : Byte) : (s.setDT b).agenda = s.agenda := rfl
@[simp] theorem State.setDT_reg (s : State) (b : Byte) (x : Nibble) : (s.setDT b).reg x = s.reg x := rfl
@[simp] theorem State.setDT_keyPressed (s : State) (b : Byte) (j : Nibble) : (s.setDT b).keyPressed j = s.keyPressed j := rfl
@[simp] theorem State.setDT_byteAt (s : State) (b : Byte) (z : Nat) : (s.setDT b).byteAt z = s.byteAt z := rfl
@[simp] theorem State.setDT_pixel (s : State) (b : Byte) (px py : Nat) : (s.setDT b).pixel px py = s.pixel px py := rfl

/-! ### setST -/

@[simp] theorem State.setST_v (s : State) (b : Byte) : (s.setST b).v = s.v := rfl
@[simp] theorem State.setST_pc (s : State) (b : Byte) : (s.setST b).pc = s.pc := rfl
@[simp] theorem State.setST_index (s : State) (b : Byte) : (s.setST b).index = s.index := rfl
@[simp] theorem State.setST_stack (s : State) (b : Byte) : (s.setST b).stack = s.stack := rfl
@[simp] theorem State.setST_mem (s : State) (b : Byte) : (s.setST b).mem = s.mem := rfl
@[simp] theorem State.setST_disp (s : State) (b : Byte) : (s.setST b).disp = s.disp := rfl
@[simp] theorem State.setST_dt (s : State) (b : Byte) : (s.setST b).dt = s.dt := rfl
@[simp] theorem State.setST_st (s : State) (b : Byte) : (s.setST b).st = b := rfl
@[simp] theorem State.setST_keys (s : State) (b : Byte) : (s.setST b).keys = s.keys := rfl
@[simp] theorem State.setST_status (s : State) (b : Byte) : (s.setST b).status = s.status := rfl
@[simp] theorem State.setST_cfg (s : State) (b : Byte) : (s.setST b).cfg = s.cfg := rfl
@[simp] theorem State.setST_frames (s : State) (b : Byte) : (s.setST b).frames = s.frames := rfl
@[simp] theorem State.setST_draws (s : State) (b : Byte) : (s.setST b).draws = s.draws := rfl
@[simp] theorem State.setST_agenda (s : State) (b : Byte) : (s.setST b).agenda = s.agenda := rfl
@[simp] theorem State.setST_reg (s : State) (b : Byte) (x : Nibble) : (s.setST b).reg x = s.reg x := rfl
@[simp] theorem State.setST_keyPressed (s : State) (b : Byte) (j : Nibble) : (s.setST b).keyPressed j = s.keyPressed j := rfl
@[simp] theorem State.setST_byteAt (s : State) (b : Byte) (z : Nat) : (s.setST b).byteAt z = s.byteAt z := rfl
@[simp] theorem State.setST_pixel (s : State) (b : Byte) (px py : Nat) : (s.setST b).pixel px py = s.pixel px py := rfl

/-! ### setStatus -/

@[simp] theorem State.setStatus_v (s : State) (r : Status) : (s.setStatus r).v = s.v := rfl
@[simp] theorem State.setStatus_pc (s : State) (r : Status) : (s.setStatus r).pc = s.pc := rfl
@[simp] theorem State.setStatus_index (s : State) (r : Status) : (s.setStatus r).index = s.index := rfl
@[simp] theorem State.setStatus_stack (s : State) (r : Status) : (s.setStatus r).stack = s.stack := rfl
@[simp] theorem State.setStatus_mem (s : State) (r : Status) : (s.setStatus r).mem = s.mem := rfl
@[simp] theorem State.setStatus_disp (s : State) (r : Status) : (s.setStatus r).disp = s.disp := rfl
@[simp] theorem State.setStatus_dt (s : State) (r : Status) : (s.setStatus r).dt = s.dt := rfl
@[simp] theorem State.setStatus_st (s : State) (r : Status) : (s.setStatus r).st = s.st := rfl
@[simp] theorem State.setStatus_keys (s : State) (r : Status) : (s.setStatus r).keys = s.keys := rfl
@[simp] theorem State.setStatus_status (s : State) (r : Status) : (s.setStatus r).status = r := rfl
@[simp] theorem State.setStatus_cfg (s : State) (r : Status) : (s.setStatus r).cfg = s.cfg := rfl
@[simp] theorem State.setStatus_frames (s : State) (r : Status) : (s.setStatus r).frames = s.frames := rfl
@[simp] theorem State.setStatus_draws (s : State) (r : Status) : (s.setStatus r).draws = s.draws := rfl
@[simp] theorem State.setStatus_agenda (s : State) (r : Status) : (s.setStatus r).agenda = s.agenda := rfl
@[simp] theorem State.setStatus_reg (s : State) (r : Status) (x : Nibble) : (s.setStatus r).reg x = s.reg x := rfl
@[simp] theorem State.setStatus_keyPressed (s : State) (r : Status) (j : Nibble) : (s.setStatus r).keyPressed j = s.keyPressed j := rfl
@[simp] theorem State.setStatus_byteAt (s : State) (r : Status) (z : Nat) : (s.setStatus r).byteAt z = s.byteAt z := rfl
@[simp] theorem State.setStatus_pixel (s : State) (r : Status) (px py : Nat) : (s.setStatus r).pixel px py = s.pixel px py := rfl

/-! ### setAgenda -/

@[simp] theorem State.setAgenda_v (s : State) (es : List HostEvent) : (s.setAgenda es).v = s.v := rfl
@[simp] theorem State.setAgenda_pc (s : State) (es : List HostEvent) : (s.setAgenda es).pc = s.pc := rfl
@[simp] theorem State.setAgenda_index (s : State) (es : List HostEvent) : (s.setAgenda es).index = s.index := rfl
@[simp] theorem State.setAgenda_stack (s : State) (es : List HostEvent) : (s.setAgenda es).stack = s.stack := rfl
@[simp] theorem State.setAgenda_mem (s : State) (es : List HostEvent) : (s.setAgenda es).mem = s.mem := rfl
@[simp] theorem State.setAgenda_disp (s : State) (es : List HostEvent) : (s.setAgenda es).disp = s.disp := rfl
@[simp] theorem State.setAgenda_dt (s : State) (es : List HostEvent) : (s.setAgenda es).dt = s.dt := rfl
@[simp] theorem State.setAgenda_st (s : State) (es : List HostEvent) : (s.setAgenda es).st = s.st := rfl
@[simp] theorem State.setAgenda_keys (s : State) (es : List HostEvent) : (s.setAgenda es).keys = s.keys := rfl
@[simp] theorem State.setAgenda_status (s : State) (es : List HostEvent) : (s.setAgenda es).status = s.status := rfl
@[simp] theorem State.setAgenda_cfg (s : State) (es : List HostEvent) : (s.setAgenda es).cfg = s.cfg := rfl
@[simp] theorem State.setAgenda_frames (s : State) (es : List HostEvent) : (s.setAgenda es).frames = s.frames := rfl
@[simp] theorem State.setAgenda_draws (s : State) (es : List HostEvent) : (s.setAgenda es).draws = s.draws := rfl
@[simp] theorem State.setAgenda_agenda (s : State) (es : List HostEvent) : (s.setAgenda es).agenda = es := rfl
@[simp] theorem State.setAgenda_reg (s : State) (es : List HostEvent) (x : Nibble) : (s.setAgenda es).reg x = s.reg x := rfl
@[simp] theorem State.setAgenda_keyPressed (s : State) (es : List HostEvent) (j : Nibble) : (s.setAgenda es).keyPressed j = s.keyPressed j := rfl
@[simp] theorem State.setAgenda_byteAt (s : State) (es : List HostEvent) (z : Nat) : (s.setAgenda es).byteAt z = s.byteAt z := rfl
@[simp] theorem State.setAgenda_pixel (s : State) (es : List HostEvent) (px py : Nat) : (s.setAgenda es).pixel px py = s.pixel px py := rfl

/-! ### present -/

@[simp] theorem State.present_v (s : State) : s.present.v = s.v := rfl
@[simp] theorem State.present_pc (s : State) : s.present.pc = s.pc := rfl
@[simp] theorem State.present_index (s : State) : s.present.index = s.index := rfl
@[simp] theorem State.present_stack (s : State) : s.present.stack = s.stack := rfl
@[simp] theorem State.present_mem (s : State) : s.present.mem = s.mem := rfl
@[simp] theorem State.present_disp (s : State) : s.present.disp = s.disp := rfl
@[simp] theorem State.present_dt (s : State) : s.present.dt = s.dt := rfl
@[simp] theorem State.present_st (s : State) : s.present.st = s.st := rfl
@[simp] theorem State.present_keys (s : State) : s.present.keys = s.keys := rfl
@[simp] theorem State.present_status (s : State) : s.present.status = s.status := rfl
@[simp] theorem State.present_cfg (s : State) : s.present.cfg = s.cfg := rfl
@[simp] theorem State.present_frames (s : State) : s.present.frames = s.frames + 1 := rfl
@[simp] theorem State.present_draws (s : State) : s.present.draws = s.draws := rfl
@[simp] theorem State.present_agenda (s : State) : s.present.agenda = s.agenda := rfl
@[simp] theorem State.present_reg (s : State) (x : Nibble) : s.present.reg x = s.reg x := rfl
@[simp] theorem State.present_keyPressed (s : State) (j : Nibble) : s.present.keyPressed j = s.keyPressed j := rfl
@[simp] theorem State.present_byteAt (s : State) (z : Nat) : s.present.byteAt z = s.byteAt z := rfl
@[simp] theorem State.present_pixel (s : State) (px py : Nat) : s.present.pixel px py = s.pixel px py := rfl

/-! ### nextDraw -/

@[simp] theorem State.nextDraw_v (s : State) : s.nextDraw.v = s.v := rfl
@[simp] theorem State.nextDraw_pc (s : State) : s.nextDraw.pc = s.pc := rfl
@[simp] theorem State.nextDraw_index (s : State) : s.nextDraw.index = s.index := rfl
@[simp] theorem State.nextDraw_stack (s : State) : s.nextDraw.stack = s.stack := rfl
@[simp] theorem State.nextDraw_mem (s : State) : s.nextDraw.mem = s.mem := rfl
@[simp] theorem State.nextDraw_disp (s : State) : s.nextDraw.disp = s.disp := rfl
@[simp] theorem State.nextDraw_dt (s : State) : s.nextDraw.dt = s.dt := rfl
@[simp] theorem State.nextDraw_st (s : State) : s.nextDraw.st = s.st := rfl
@[simp] theorem State.nextDraw_keys (s : State) : s.nextDraw.keys = s.keys := rfl
@[simp] theorem State.nextDraw_status (s : State) : s.nextDraw.status = s.status := rfl
@[simp] theorem State.nextDraw_cfg (s : State) : s.nextDraw.cfg = s.cfg := rfl
@[simp] theorem State.nextDraw_frames (s : State) : s.nextDraw.frames = s.frames := rfl
@[simp] theorem State.nextDraw_draws (s : State) : s.nextDraw.draws = s.draws + 1 := rfl
@[simp] theorem State.nextDraw_agenda (s : State) : s.nextDraw.agenda = s.agenda := rfl
@[simp] theorem State.nextDraw_reg (s : State) (x : Nibble) : s.nextDraw.reg x = s.reg x := rfl
@[simp] theorem State.nextDraw_keyPressed (s : State) (j : Nibble) : s.nextDraw.keyPressed j = s.keyPressed j := rfl
@[simp] theorem State.nextDraw_byteAt (s : State) (z : Nat) : s.nextDraw.byteAt z = s.byteAt z := rfl
@[simp] theorem State.nextDraw_pixel (s : State) (px py : Nat) : s.nextDraw.pixel px py = s.pixel px py := rfl

/-! ### advance -/

@[simp] theorem State.advance_v (s : State) : s.advance.v = s.v := rfl
@[simp] theorem State.advance_pc (s : State) : s.advance.pc = s.pc + 2 := rfl
@[simp] theorem State.advance_index (s : State) : s.advance.index = s.index := rfl
@[simp] theorem State.advance_stack (s : State) : s.advance.stack = s.stack := rfl
@[simp] theorem State.advance_mem (s : State) : s.advance.mem = s.mem := rfl
@[simp] theorem State.advance_disp (s : State) : s.advance.disp = s.disp := rfl
@[simp] theorem State.advance_dt (s : State) : s.advance.dt = s.dt := rfl
@[simp] theorem State.advance_st (s : State) : s.advance.st = s.st := rfl
@[simp] theorem State.advance_keys (s : State) : s.advance.keys = s.keys := rfl
@[simp] theorem State.advance_status (s : State) : s.advance.status = s.status := rfl
@[simp] theorem State.advance_cfg (s : State) : s.advance.cfg = s.cfg := rfl
@[simp] theorem State.advance_frames (s : State) : s.advance.frames = s.frames := rfl
@[simp] theorem State.advance_draws (s : State) : s.advance.draws = s.draws := rfl
@[simp] theorem State.advance_agenda (s : State) : s.advance.agenda = s.agenda := rfl
@[simp] theorem State.advance_reg (s : State) (x : Nibble) : s.advance.reg x = s.reg x := rfl
@[simp] theorem State.advance_keyPressed (s : State) (j : Nibble) : s.advance.keyPressed j = s.keyPressed j := rfl
@[simp] theorem State.advance_byteAt (s : State) (z : Nat) : s.advance.byteAt z = s.byteAt z := rfl
@[simp] theorem State.advance_pixel (s : State) (px py : Nat) : s.advance.pixel px py = s.pixel px py := rfl

/-! ### skipIf -/

@[simp] theorem State.skipIf_v (s : State) (c : Bool) : (s.skipIf c).v = s.v := rfl
@[simp] theorem State.skipIf_pc (s : State) (c : Bool) : (s.skipIf c).pc = if c then s.pc + 4 else s.pc + 2 := rfl
@[simp] theorem State.skipIf_index (s : State) (c : Bool) : (s.skipIf c).index = s.index := rfl
@[simp] theorem State.skipIf_stack (s : State) (c : Bool) : (s.skipIf c).stack = s.stack := rfl
@[simp] theorem State.skipIf_mem (s : State) (c : Bool) : (s.skipIf c).mem = s.mem := rfl
@[simp] theorem State.skipIf_disp (s : State) (c : Bool) : (s.skipIf c).disp = s.disp := rfl
@[simp] theorem State.skipIf_dt (s : State) (c : Bool) : (s.skipIf c).dt = s.dt := rfl
@[simp] theorem State.skipIf_st (s : State) (c : Bool) : (s.skipIf c).st = s.st := rfl
@[simp] theorem State.skipIf_keys (s : State) (c : Bool) : (s.skipIf c).keys = s.keys := rfl
@[simp] theorem State.skipIf_status (s : State) (c : Bool) : (s.skipIf c).status = s.status := rfl
@[simp] theorem State.skipIf_cfg (s : State) (c : Bool) : (s.skipIf c).cfg = s.cfg := rfl
@[simp] theorem State.skipIf_frames (s : State) (c : Bool) : (s.skipIf c).frames = s.frames := rfl
@[simp] theorem State.skipIf_draws (s : State) (c : Bool) : (s.skipIf c).draws = s.draws := rfl
@[simp] theorem State.skipIf_agenda (s : State) (c : Bool) : (s.skipIf c).agenda = s.agenda := rfl
@[simp] theorem State.skipIf_reg (s : State) (c : Bool) (x : Nibble) : (s.skipIf c).reg x = s.reg x := rfl
@[simp] theorem State.skipIf_keyPressed (s : State) (c : Bool) (j : Nibble) : (s.skipIf c).keyPressed j = s.keyPressed j := rfl
@[simp] theorem State.skipIf_byteAt (s : State) (c : Bool) (z : Nat) : (s.skipIf c).byteAt z = s.byteAt z := rfl
@[simp] theorem State.skipIf_pixel (s : State) (c : Bool) (px py : Nat) : (s.skipIf c).pixel px py = s.pixel px py := rfl

/-! ### setReg -/

@[simp] theorem State.setReg_pc (s : State) (x : Nibble) (b : Byte) : (s.setReg x b).pc = s.pc := rfl
@[simp] theorem State.setReg_index (s : State) (x : Nibble) (b : Byte) : (s.setReg x b).index = s.index := rfl
@[simp] theorem State.setReg_stack (s : State) (x : Nibble) (b : Byte) : (s.setReg x b).stack = s.stack := rfl
@[simp] theorem State.setReg_mem (s : State) (x : Nibble) (b : Byte) : (s.setReg x b).mem = s.mem := rfl
@[simp] theorem State.setReg_disp (s : State) (x : Nibble) (b : Byte) : (s.setReg x b).disp = s.disp := rfl
@[simp] theorem State.setReg_dt (s : State) (x : Nibble) (b : Byte) : (s.setReg x b).dt = s.dt := rfl
@[simp] theorem State.setReg_st (s : State) (x : Nibble) (b : Byte) : (s.setReg x b).st = s.st := rfl
@[simp] theorem State.setReg_keys (s : State) (x : Nibble) (b : Byte) : (s.setReg x b).keys = s.keys := rfl
@[simp] theorem State.setReg_status (s : State) (x : Nibble) (b : Byte) : (s.setReg x b).status = s.status := rfl
@[simp] theorem State.setReg_cfg (s : State) (x : Nibble) (b : Byte) : (s.setReg x b).cfg = s.cfg := rfl
@[simp] theorem State.setReg_frames (s : State) (x : Nibble) (b : Byte) : (s.setReg x b).frames = s.frames := rfl
@[simp] theorem State.setReg_draws (s : State) (x : Nibble) (b : Byte) : (s.setReg x b).draws = s.draws := rfl
@[simp] theorem State.setReg_agenda (s : State) (x : Nibble) (b : Byte) : (s.setReg x b).agenda = s.agenda := rfl
@[simp] theorem State.setReg_keyPressed (s : State) (x : Nibble) (b : Byte) (j : Nibble) : (s.setReg x b).keyPressed j = s.keyPressed j := rfl
@[simp] theorem State.setReg_byteAt (s : State) (x : Nibble) (b : Byte) (z : Nat) : (s.setReg x b).byteAt z = s.byteAt z := rfl
@[simp] theorem State.setReg_pixel (s : State) (x : Nibble) (b : Byte) (px py : Nat) : (s.setReg x b).pixel px py = s.pixel px py := rfl

/-! ### setKey -/

@[simp] theorem State.setKey_v (s : State) (k : Nibble) (p : Bool) : (s.setKey k p).v = s.v := rfl
@[simp] theorem State.setKey_pc (s : State) (k : Nibble) (p : Bool) : (s.setKey k p).pc = s.pc := rfl
@[simp] theorem State.setKey_index (s : State) (k : Nibble) (p : Bool) : (s.setKey k p).index = s.index := rfl
@[simp] theorem State.setKey_stack (s : State) (k : Nibble) (p : Bool) : (s.setKey k p).stack = s.stack := rfl
@[simp] theorem State.setKey_mem (s : State) (k : Nibble) (p : Bool) : (s.setKey k p).mem = s.mem := rfl
@[simp] theorem State.setKey_disp (s : State) (k : Nibble) (p : Bool) : (s.setKey k p).disp = s.disp := rfl
@[simp] theorem State.setKey_dt (s : State) (k : Nibble) (p : Bool) : (s.setKey k p).dt = s.dt := rfl
@[simp] theorem State.setKey_st (s : State) (k : Nibble) (p : Bool) : (s.setKey k p).st = s.st := rfl
@[simp] theorem State.setKey_status (s : State) (k : Nibble) (p : Bool) : (s.setKey k p).status = s.status := rfl
@[simp] theorem State.setKey_cfg (s : State) (k : Nibble) (p : Bool) : (s.setKey k p).cfg = s.cfg := rfl
@[simp] theorem State.setKey_frames (s : State) (k : Nibble) (p : Bool) : (s.setKey k p).frames = s.frames := rfl
@[simp] theorem State.setKey_draws (s : State) (k : Nibble) (p : Bool) : (s.setKey k p).draws = s.draws := rfl
@[simp] theorem State.setKey_agenda (s : State) (k : Nibble) (p : Bool) : (s.setKey k p).agenda = s.agenda := rfl
@[simp] theorem State.setKey_reg (s : State) (k : Nibble) (p : Bool) (x : Nibble) : (s.setKey k p).reg x = s.reg x := rfl
@[simp] theorem State.setKey_byteAt (s : State) (k : Nibble) (p : Bool) (z : Nat) : (s.setKey k p).byteAt z = s.byteAt z := rfl
@[simp] theorem State.setKey_pixel (s : State) (k : Nibble) (p : Bool) (px py : Nat) : (s.setKey k p).pixel px py = s.pixel px py := rfl

/-! ### storeByte -/

@[simp] theorem State.storeByte_v (s : State) (a : Nat) (b : Byte) : (s.storeByte a b).v = s.v := rfl
@[simp] theorem State.storeByte_pc (s : State) (a : Nat) (b : Byte) : (s.storeByte a b).pc = s.pc := rfl
@[simp] theorem State.storeByte_index (s : State) (a : Nat) (b : Byte) : (s.storeByte a b).index = s.index := rfl
@[simp] theorem State.storeByte_stack (s : State) (a : Nat) (b : Byte) : (s.storeByte a b).stack = s.stack := rfl
@[simp] theorem State.storeByte_mem (s : State) (a : Nat) (b : Byte) : (s.storeByte a b).mem = Memory.write s.cfg s.mem a b := rfl
@[simp] theorem State.storeByte_disp (s : State) (a : Nat) (b : Byte) : (s.storeByte a b).disp = s.disp := rfl
@[simp] theorem State.storeByte_dt (s : State) (a : Nat) (b : Byte) : (s.storeByte a b).dt = s.dt := rfl
@[simp] theorem State.storeByte_st (s : State) (a : Nat) (b : Byte) : (s.storeByte a b).st = s.st := rfl
@[simp] theorem State.storeByte_keys (s : State) (a : Nat) (b : Byte) : (s.storeByte a b).keys = s.keys := rfl
@[simp] theorem State.storeByte_status (s : State) (a : Nat) (b : Byte) : (s.storeByte a b).status = s.status := rfl
@[simp] theorem State.storeByte_cfg (s : State) (a : Nat) (b : Byte) : (s.storeByte a b).cfg = s.cfg := rfl
@[simp] theorem State.storeByte_frames (s : State) (a : Nat) (b : Byte) : (s.storeByte a b).frames = s.frames := rfl
@[simp] theorem State.storeByte_draws (s : State) (a : Nat) (b : Byte) : (s.storeByte a b).draws = s.draws := rfl
@[simp] theorem State.storeByte_agenda (s : State) (a : Nat) (b : Byte) : (s.storeByte a b).agenda = s.agenda := rfl
@[simp] theorem State.storeByte_reg (s : State) (a : Nat) (b : Byte) (x : Nibble) : (s.storeByte a b).reg x = s.reg x := rfl
@[simp] theorem State.storeByte_keyPressed (s : State) (a : Nat) (b : Byte) (j : Nibble) : (s.storeByte a b).keyPressed j = s.keyPressed j := rfl
@[simp] theorem State.storeByte_pixel (s : State) (a : Nat) (b : Byte) (px py : Nat) : (s.storeByte a b).pixel px py = s.pixel px py := rfl

/-! ### raise -/

@[simp] theorem State.raise_v (s : State) (w : Option Word) (c : Cause) : (s.raise w c).v = s.v := rfl
@[simp] theorem State.raise_pc (s : State) (w : Option Word) (c : Cause) : (s.raise w c).pc = s.pc := rfl
@[simp] theorem State.raise_index (s : State) (w : Option Word) (c : Cause) : (s.raise w c).index = s.index := rfl
@[simp] theorem State.raise_stack (s : State) (w : Option Word) (c : Cause) : (s.raise w c).stack = s.stack := rfl
@[simp] theorem State.raise_mem (s : State) (w : Option Word) (c : Cause) : (s.raise w c).mem = s.mem := rfl
@[simp] theorem State.raise_disp (s : State) (w : Option Word) (c : Cause) : (s.raise w c).disp = s.disp := rfl
@[simp] theorem State.raise_dt (s : State) (w : Option Word) (c : Cause) : (s.raise w c).dt = s.dt := rfl
@[simp] theorem State.raise_st (s : State) (w : Option Word) (c : Cause) : (s.raise w c).st = s.st := rfl
@[simp] theorem State.raise_keys (s : State) (w : Option Word) (c : Cause) : (s.raise w c).keys = s.keys := rfl
@[simp] theorem State.raise_status (s : State) (w : Option Word) (c : Cause) : (s.raise w c).status = .halted (c.record s.pc w) := rfl
@[simp] theorem State.raise_cfg (s : State) (w : Option Word) (c : Cause) : (s.raise w c).cfg = s.cfg := rfl
@[simp] theorem State.raise_frames (s : State) (w : Option Word) (c : Cause) : (s.raise w c).frames = s.frames := rfl
@[simp] theorem State.raise_draws (s : State) (w : Option Word) (c : Cause) : (s.raise w c).draws = s.draws := rfl
@[simp] theorem State.raise_agenda (s : State) (w : Option Word) (c : Cause) : (s.raise w c).agenda = s.agenda := rfl
@[simp] theorem State.raise_reg (s : State) (w : Option Word) (c : Cause) (x : Nibble) : (s.raise w c).reg x = s.reg x := rfl
@[simp] theorem State.raise_keyPressed (s : State) (w : Option Word) (c : Cause) (j : Nibble) : (s.raise w c).keyPressed j = s.keyPressed j := rfl
@[simp] theorem State.raise_byteAt (s : State) (w : Option Word) (c : Cause) (z : Nat) : (s.raise w c).byteAt z = s.byteAt z := rfl
@[simp] theorem State.raise_pixel (s : State) (w : Option Word) (c : Cause) (px py : Nat) : (s.raise w c).pixel px py = s.pixel px py := rfl

end Sys2Proof.Machine
end

