-- ==== Sys2Proof/Laws/Registers.lean ====
section
/-! SUPPORT. Reading a register after a write of one, and a key after a change of one. -/

namespace Sys2Proof.Machine

theorem nibble_toNat_inj {x r : Nibble} : x.toNat = r.toNat ↔ x = r := BitVec.toNat_inj

/-- Read after write: the one register written, and every other. -/
theorem State.reg_setReg (s : State) (x r : Nibble) (b : Byte) :
    (s.setReg x b).reg r = if r = x then b else s.reg r := by
  simp only [State.reg, State.setReg, Vector.getElem_set, nibble_toNat_inj, eq_comm]

@[simp] theorem State.reg_setReg_same (s : State) (x : Nibble) (b : Byte) : (s.setReg x b).reg x = b := by
  simp [State.reg_setReg]

theorem State.reg_setReg_other (s : State) {x r : Nibble} (b : Byte) (h : r ≠ x) :
    (s.setReg x b).reg r = s.reg r := by
  simp [State.reg_setReg, h]

theorem State.keyPressed_setKey (s : State) (k j : Nibble) (p : Bool) :
    (s.setKey k p).keyPressed j = if j = k then p else s.keyPressed j := by
  simp only [State.keyPressed, State.setKey, Vector.getElem_set, nibble_toNat_inj, eq_comm]

/-- Two register files with equal registers are equal. -/
theorem State.v_ext {s t : State} (h : ∀ r, t.reg r = s.reg r) : t.v = s.v := by
  apply Vector.ext
  intro i hi
  simpa [State.reg, Nat.mod_eq_of_lt hi] using h (BitVec.ofNat 4 i)

/-- A key is among the pressed ones exactly when its level says so. -/
theorem State.mem_pressedKeys (s : State) (k : Nibble) : k ∈ s.pressedKeys ↔ s.keyPressed k = true := by
  simp only [State.pressedKeys, List.mem_filter, List.mem_map, List.mem_range, and_iff_right_iff_imp]
  intro _
  exact ⟨k.toNat, k.isLt, by simp⟩

/-- The key picked is one of the listed. -/
theorem mem_of_pickKey {d : Nat} {ks : List Nibble} {k : Nibble} (h : pickKey d ks = some k) : k ∈ ks := by
  match ks, h with
  | [k₀], h => simpa [pickKey, eq_comm] using h
  | k₀ :: k₁ :: ks, h =>
    simp only [pickKey, Option.some.injEq] at h
    subst h
    have hlt : d % (ks.length + 2) < (k₀ :: k₁ :: ks).length := Nat.mod_lt d (Nat.succ_pos _)
    rw [List.getD_eq_getElem _ _ hlt]
    exact List.getElem_mem _

/-- A key is picked whenever one is listed. -/
theorem pickKey_isSome {d : Nat} {ks : List Nibble} (h : ks ≠ []) : ∃ k, pickKey d ks = some k := by
  match ks, h with
  | [k₀], _ => exact ⟨k₀, rfl⟩
  | k₀ :: k₁ :: ks, _ => exact ⟨_, rfl⟩

/-- The registers after a block load that starts at register `k`. -/
theorem State.reg_loadRegs (s : State) (as : List Nat) (k : Nat) (hk : k + as.length ≤ 16) (r : Nibble) :
    (s.loadRegs k as).reg r =
      if h : k ≤ r.toNat ∧ r.toNat < k + as.length then s.byteAt (as[r.toNat - k]'(by omega)) else s.reg r := by
  induction as generalizing s k with
  | nil =>
    simp only [State.loadRegs, List.length_nil, Nat.add_zero]
    rw [dif_neg (by omega)]
  | cons a as ih =>
    simp only [List.length_cons] at hk
    rw [State.loadRegs, ih _ _ (by omega)]
    have hr : r = BitVec.ofNat 4 k ↔ r.toNat = k := by
      rw [← BitVec.toNat_inj, BitVec.toNat_ofNat, Nat.mod_eq_of_lt (by omega)]
    by_cases h0 : r.toNat = k
    · subst h0
      simp
    · by_cases h : k + 1 ≤ r.toNat ∧ r.toNat < k + 1 + as.length
      · rw [dif_pos h, dif_pos (by simp; omega)]
        simp only [State.setReg_byteAt]
        congr 1
        rw [List.getElem_cons, dif_neg (by omega)]
        congr 1
      · rw [dif_neg h, dif_neg (by simp; omega), State.reg_setReg, if_neg (by rw [hr]; exact h0)]

/-- A block load touches nothing but registers. -/
theorem State.loadRegs_rest (s : State) (as : List Nat) (k : Nat) :
    ∃ v, s.loadRegs k as = { s with v := v } := by
  induction as generalizing s k with
  | nil => exact ⟨s.v, rfl⟩
  | cons a as ih =>
    obtain ⟨v, hv⟩ := ih (s.setReg (BitVec.ofNat 4 k) (s.byteAt a)) (k + 1)
    exact ⟨v, by rw [State.loadRegs, hv]; rfl⟩

end Sys2Proof.Machine
end

