-- ==== Sys2Proof/Laws/Memory.lean ====
section
/-! SUPPORT. The laws of memory: the canonical form is kept by every write, a read after a write, and equal memories are
equal data. -/

namespace Sys2Proof.Machine

variable {c : Config}

/-- Raising the lower bound keeps less, lowering it keeps more. -/
theorem Memory.wfFrom_mono {lo lo' : Nat} {m : Memory} (h : Memory.wfFrom c lo m = true) (hle : lo' ≤ lo) :
    Memory.wfFrom c lo' m = true := by
  cases m with
  | nil => rfl
  | cons e rest =>
    obtain ⟨a, b⟩ := e
    simp only [Memory.wfFrom, Bool.and_eq_true, decide_eq_true_eq] at h ⊢
    exact ⟨⟨⟨hle.trans h.1.1.1, h.1.1.2⟩, h.1.2⟩, h.2⟩

/-- The head of a canonical memory, said once. -/
theorem Memory.wfFrom_cons {lo a : Nat} {b : Byte} {rest : Memory} :
    Memory.wfFrom c lo ((a, b) :: rest) = true ↔
      lo ≤ a ∧ a < memSize ∧ b ≠ initialByte c a ∧ Memory.wfFrom c (a + 1) rest = true := by
  simp [Memory.wfFrom, and_assoc]

/-- Below the first cell, a canonical memory reads as the reset contents. -/
theorem Memory.read_of_wfFrom {lo a : Nat} {m : Memory} (h : Memory.wfFrom c lo m = true) (ha : a < lo) :
    Memory.read c m a = initialByte c a := by
  induction m generalizing lo with
  | nil => rfl
  | cons e rest ih =>
    obtain ⟨k, b⟩ := e
    obtain ⟨h1, -, -, h4⟩ := Memory.wfFrom_cons.1 h
    rw [Memory.read, if_neg (by omega)]
    exact ih h4 (by omega)

theorem Memory.cons_wfFrom {lo a : Nat} {b : Byte} {m : Memory} (hlo : lo ≤ a) (ha : a < memSize)
    (h : Memory.wfFrom c (a + 1) m = true) : Memory.wfFrom c lo (Memory.cons c a b m) = true := by
  unfold Memory.cons
  split
  · exact Memory.wfFrom_mono h (by omega)
  · exact Memory.wfFrom_cons.2 ⟨hlo, ha, by assumption, h⟩

theorem Memory.write_wfFrom {lo a : Nat} {b : Byte} {m : Memory} (h : Memory.wfFrom c lo m = true) (hlo : lo ≤ a)
    (ha : a < memSize) : Memory.wfFrom c lo (Memory.write c m a b) = true := by
  induction m generalizing lo with
  | nil => exact Memory.cons_wfFrom hlo ha rfl
  | cons e rest ih =>
    obtain ⟨k, d⟩ := e
    obtain ⟨h1, h2, h3, h4⟩ := Memory.wfFrom_cons.1 h
    unfold Memory.write
    split
    · exact Memory.cons_wfFrom hlo ha (Memory.wfFrom_cons.2 ⟨by omega, h2, h3, h4⟩)
    · split
      · subst a; exact Memory.cons_wfFrom hlo ha h4
      · exact Memory.wfFrom_cons.2 ⟨h1, h2, h3, ih h4 (by omega)⟩

/-- A write inside memory keeps the canonical form. -/
theorem Memory.write_wf {a : Nat} {b : Byte} {m : Memory} (h : Memory.wf c m = true) (ha : a < memSize) :
    Memory.wf c (Memory.write c m a b) = true :=
  Memory.write_wfFrom h (Nat.zero_le _) ha

theorem Memory.read_cons' {a z : Nat} {b : Byte} {m : Memory} (h : Memory.wfFrom c (a + 1) m = true) :
    Memory.read c (Memory.cons c a b m) z = if z = a then b else Memory.read c m z := by
  unfold Memory.cons
  split
  next hb =>
    split
    next hz => subst hz; rw [Memory.read_of_wfFrom h (by omega), hb]
    next => rfl
  next => rfl

theorem Memory.read_write_from {lo a z : Nat} {b : Byte} {m : Memory} (h : Memory.wfFrom c lo m = true) :
    Memory.read c (Memory.write c m a b) z = if z = a then b else Memory.read c m z := by
  induction m generalizing lo with
  | nil => exact Memory.read_cons' rfl
  | cons e rest ih =>
    obtain ⟨k, d⟩ := e
    obtain ⟨h1, h2, h3, h4⟩ := Memory.wfFrom_cons.1 h
    unfold Memory.write
    split
    next hlt => exact Memory.read_cons' (Memory.wfFrom_cons.2 ⟨by omega, h2, h3, h4⟩)
    next =>
      split
      next heq =>
        subst heq
        rw [Memory.read_cons' h4]
        split
        next => rfl
        next hz => rw [Memory.read, if_neg hz]
      next hne =>
        rw [Memory.read, ih h4, Memory.read]
        split
        next hz => subst hz; rw [if_neg (by omega)]
        next => rfl

/-- Read after write: the byte written, and every other byte. -/
theorem Memory.read_write {a z : Nat} {b : Byte} {m : Memory} (h : Memory.wf c m = true) :
    Memory.read c (Memory.write c m a b) z = if z = a then b else Memory.read c m z :=
  Memory.read_write_from h

theorem State.byteAt_storeByte {s : State} (h : Memory.wf s.cfg s.mem = true) (a z : Nat) (b : Byte) :
    (s.storeByte a b).byteAt z = if z = a then b else s.byteAt z :=
  Memory.read_write h

/-- Stores keep the canonical form and the parameters. -/
theorem State.storeBytes_wf {ws : List (Nat × Byte)} {s : State} (h : Memory.wf s.cfg s.mem = true)
    (hw : ∀ w ∈ ws, w.1 < memSize) : Memory.wf s.cfg (s.storeBytes ws).mem = true := by
  induction ws generalizing s with
  | nil => exact h
  | cons w ws ih =>
    rw [State.storeBytes]
    exact ih (s := s.storeByte w.1 w.2) (Memory.write_wf h (hw w (by simp)))
      fun v hv => hw v (by simp [hv])

/-- Stores touch nothing but memory. -/
theorem State.storeBytes_rest (s : State) (ws : List (Nat × Byte)) : ∃ m, s.storeBytes ws = { s with mem := m } := by
  induction ws generalizing s with
  | nil => exact ⟨s.mem, rfl⟩
  | cons w ws ih =>
    obtain ⟨m, hm⟩ := ih (s.storeByte w.1 w.2)
    exact ⟨m, by rw [State.storeBytes, hm]; rfl⟩

/-- A byte that no store of the list addresses is unchanged. -/
theorem State.byteAt_storeBytes_off {ws : List (Nat × Byte)} {s : State} (h : Memory.wf s.cfg s.mem = true)
    (hw : ∀ w ∈ ws, w.1 < memSize) {z : Nat} (hz : z ∉ ws.map Prod.fst) :
    (s.storeBytes ws).byteAt z = s.byteAt z := by
  induction ws generalizing s with
  | nil => rfl
  | cons w ws ih =>
    simp only [List.map_cons, List.mem_cons, not_or] at hz
    rw [State.storeBytes, ih (s := s.storeByte w.1 w.2) (Memory.write_wf h (hw w (by simp)))
      (fun v hv => hw v (by simp [hv])) hz.2, State.byteAt_storeByte h, if_neg hz.1]

/-- A byte stored once holds what was stored. -/
theorem State.byteAt_storeBytes_on {ws : List (Nat × Byte)} {s : State} (h : Memory.wf s.cfg s.mem = true)
    (hw : ∀ w ∈ ws, w.1 < memSize) (hn : (ws.map Prod.fst).Nodup) {a : Nat} {b : Byte} (hm : (a, b) ∈ ws) :
    (s.storeBytes ws).byteAt a = b := by
  induction ws generalizing s with
  | nil => simp at hm
  | cons w ws ih =>
    simp only [List.map_cons, List.nodup_cons] at hn
    have hwf : Memory.wf (s.storeByte w.1 w.2).cfg (s.storeByte w.1 w.2).mem = true :=
      Memory.write_wf h (hw w (by simp))
    have hrest : ∀ v ∈ ws, v.1 < memSize := fun v hv => hw v (by simp [hv])
    rw [State.storeBytes]
    rcases List.mem_cons.1 hm with rfl | hm
    · rw [State.byteAt_storeBytes_off hwf hrest hn.1, State.byteAt_storeByte h, if_pos rfl]
    · exact ih hwf hrest hn.2 hm

end Sys2Proof.Machine
end

