-- ==== Sys2Proof/Laws/Checks.lean ====
section
/-! SUPPORT. What the address checks, the block checks and the key check answer, said once (20_memory.md R31, R32, R38, R40). -/

namespace Sys2Proof.Machine

variable {c : Config}

/-- `CheckAddr` succeeds exactly where the address exists or wraps, and then answers it modulo 4096. -/
theorem checkAddr_ok_iff {ea a : Nat} :
    checkAddr c ea = .ok a ↔ (ea ≤ 0xFFF ∨ c.addrPolicy = .wrap12) ∧ a = ea % 4096 := by
  unfold checkAddr
  split
  next h =>
    simp only [h, true_or, true_and, Except.ok.injEq]
    omega
  next h =>
    split <;> rename_i hp
    · simp [h, hp]
    · simp [h, hp, eq_comm]

/-- `CheckAddr` fails exactly where an address outside memory does not wrap, with the address. -/
theorem checkAddr_error_iff {ea : Nat} {e : Cause} :
    checkAddr c ea = .error e ↔ 0xFFF < ea ∧ c.addrPolicy = .fault ∧ e = .addressOutOfRange ea := by
  unfold checkAddr
  split
  next h => simp; omega
  next h =>
    have : 0xFFF < ea := by omega
    split <;> rename_i hp
    · simp [this, hp, eq_comm]
    · simp [hp]

/-- A checked address is inside memory. -/
theorem checkAddr_lt {ea a : Nat} (h : checkAddr c ea = .ok a) : a < memSize := by
  obtain ⟨-, rfl⟩ := checkAddr_ok_iff.1 h
  exact Nat.mod_lt _ (by decide)

theorem checkWrite_ok_iff {ea a : Nat} :
    checkWrite c ea = .ok a ↔
      (ea ≤ 0xFFF ∨ c.addrPolicy = .wrap12) ∧ (0x050 ≤ ea % 4096 ∨ c.fontWritePolicy = .allow) ∧ a = ea % 4096 := by
  unfold checkWrite
  split
  next e h =>
    obtain ⟨h1, h2, -⟩ := checkAddr_error_iff.1 h
    simp [h2]; omega
  next a' h =>
    obtain ⟨h1, rfl⟩ := checkAddr_ok_iff.1 h
    cases hp : c.fontWritePolicy
    · by_cases hf : ea % 4096 ≤ 0x04F
      · rw [if_pos ⟨hf, rfl⟩]; simp; omega
      · rw [if_neg (fun h => hf h.1)]
        simp only [h1, Except.ok.injEq, reduceCtorEq, or_false, true_and]
        omega
    · simp only [h1, reduceCtorEq, and_false, if_false, Except.ok.injEq, or_true, true_and]; exact eq_comm

/-- `CheckWrite` fails out of range first, and then in the font (R101). -/
theorem checkWrite_error_iff {ea : Nat} {e : Cause} :
    checkWrite c ea = .error e ↔
      (0xFFF < ea ∧ c.addrPolicy = .fault ∧ e = .addressOutOfRange ea) ∨
      ((ea ≤ 0xFFF ∨ c.addrPolicy = .wrap12) ∧ ea % 4096 < 0x050 ∧ c.fontWritePolicy = .fault ∧
        e = .fontWrite (ea % 4096)) := by
  unfold checkWrite
  split
  next e' h =>
    obtain ⟨h1, h2, rfl⟩ := checkAddr_error_iff.1 h
    simp [h1, h2, eq_comm]
  next a' h =>
    obtain ⟨h1, rfl⟩ := checkAddr_ok_iff.1 h
    have h3 : ¬ (0xFFF < ea ∧ c.addrPolicy = .fault ∧ e = .addressOutOfRange ea) := by
      rintro ⟨h4, h5, -⟩
      rcases h1 with h1 | h1
      · omega
      · rw [h5] at h1; cases h1
    cases hp : c.fontWritePolicy
    · by_cases hf : ea % 4096 ≤ 0x04F
      · rw [if_pos ⟨hf, rfl⟩]
        have : ea % 4096 < 0x050 := by omega
        simp only [h3, h1, this, Except.error.injEq, true_and, false_or]; exact eq_comm
      · rw [if_neg (fun h => hf h.1)]
        simp [h3]; omega
    · simp [h3]

theorem checkWrite_lt {ea a : Nat} (h : checkWrite c ea = .ok a) : a < memSize := by
  obtain ⟨-, -, rfl⟩ := checkWrite_ok_iff.1 h
  exact Nat.mod_lt _ (by decide)

/-- A block check answers the answers of its single checks, in order. -/
theorem checkBlock_ok_iff {check : Nat → Except Cause Nat} {f : Nat → Nat} {p : Nat → Prop}
    (hc : ∀ ea a, check ea = .ok a ↔ p ea ∧ a = f ea) (n ea : Nat) (as : List Nat) :
    checkBlock check ea n = .ok as ↔ (∀ k, k < n → p (ea + k)) ∧ as = (List.range n).map fun k => f (ea + k) := by
  induction n generalizing ea as with
  | zero => simp [checkBlock, eq_comm]
  | succ n ih =>
    rw [checkBlock]
    split
    next e h =>
      simp only [reduceCtorEq, false_iff, not_and]
      intro hp
      have := (hc ea (f ea)).2 ⟨by simpa using hp 0 (by omega), rfl⟩
      rw [h] at this; cases this
    next a h =>
      obtain ⟨hpa, rfl⟩ := (hc ea a).1 h
      have hshift : ∀ q : Nat → Prop, (∀ k, k < n + 1 → q (ea + k)) ↔ q ea ∧ ∀ k, k < n → q (ea + 1 + k) := by
        intro q
        constructor
        · intro hq
          exact ⟨by simpa using hq 0 (by omega), fun k hk => by
            rw [show ea + 1 + k = ea + (k + 1) by omega]; exact hq (k + 1) (by omega)⟩
        · rintro ⟨h0, h1⟩ k hk
          cases k with
          | zero => simpa using h0
          | succ k => rw [show ea + (k + 1) = ea + 1 + k by omega]; exact h1 k (by omega)
      have hmap : ((List.range (n + 1)).map fun k => f (ea + k)) =
          f ea :: (List.range n).map fun k => f (ea + 1 + k) := by
        rw [List.range_succ_eq_map, List.map_cons, List.map_map]
        simp only [Nat.add_zero, List.cons.injEq, true_and]
        apply List.map_congr_left
        intro k _
        simp only [Function.comp, Nat.succ_eq_add_one, show ea + (k + 1) = ea + 1 + k by omega]
      rw [hshift, hmap]
      split
      next e h' =>
        simp only [reduceCtorEq, false_iff, not_and]
        intro hp
        have := (ih (ea + 1) _).2 ⟨hp.2, rfl⟩
        rw [h'] at this; cases this
      next as' h' =>
        obtain ⟨hp', rfl⟩ := (ih (ea + 1) as').1 h'
        simp only [Except.ok.injEq]
        constructor
        · rintro rfl; exact ⟨⟨hpa, hp'⟩, rfl⟩
        · rintro ⟨-, rfl⟩; rfl

/-- A block check fails with the first failure of its single checks. -/
theorem checkBlock_error_iff {check : Nat → Except Cause Nat} (n ea : Nat) (e : Cause) :
    checkBlock check ea n = .error e ↔
      ∃ k, k < n ∧ check (ea + k) = .error e ∧ ∀ j, j < k → ∃ a, check (ea + j) = .ok a := by
  induction n generalizing ea with
  | zero => simp [checkBlock]
  | succ n ih =>
    rw [checkBlock]
    split
    next e' h =>
      simp only [Except.error.injEq]
      constructor
      · rintro rfl; exact ⟨0, by omega, by simpa using h, by omega⟩
      · rintro ⟨k, hk, he, hj⟩
        cases k with
        | zero => simp only [Nat.add_zero, h, Except.error.injEq] at he; exact he
        | succ k =>
          obtain ⟨a, ha⟩ := hj 0 (by omega)
          simp [h] at ha
    next a h =>
      have key : checkBlock check (ea + 1) n = .error e ↔
          ∃ k, k < n + 1 ∧ check (ea + k) = .error e ∧ ∀ j, j < k → ∃ a, check (ea + j) = .ok a := by
        rw [ih]
        constructor
        · rintro ⟨k, hk, he, hj⟩
          refine ⟨k + 1, by omega, by rw [show ea + (k + 1) = ea + 1 + k by omega]; exact he, fun j hjk => ?_⟩
          cases j with
          | zero => exact ⟨a, by simpa using h⟩
          | succ j => rw [show ea + (j + 1) = ea + 1 + j by omega]; exact hj j (by omega)
        · rintro ⟨k, hk, he, hj⟩
          cases k with
          | zero => simp [h] at he
          | succ k =>
            refine ⟨k, by omega, by rw [show ea + 1 + k = ea + (k + 1) by omega]; exact he, fun j hjk => ?_⟩
            rw [show ea + 1 + j = ea + (j + 1) by omega]; exact hj (j + 1) (by omega)
      rw [← key]
      split
      next e' h' => simp [h']
      next as h' => simp [h']

/-- A block read succeeds exactly when every byte may be read, at the block's addresses. -/
theorem State.readBlock_ok_iff (s : State) (n : Nat) (as : List Nat) :
    s.readBlock n = .ok as ↔ s.CanRead n ∧ as = s.blockAddrs n :=
  checkBlock_ok_iff (p := fun ea => ea ≤ 0xFFF ∨ s.cfg.addrPolicy = .wrap12) (f := (· % 4096))
    (fun _ _ => checkAddr_ok_iff) n _ as

/-- A block write succeeds exactly when every byte may be written, at the block's addresses. -/
theorem State.writeBlock_ok_iff (s : State) (n : Nat) (as : List Nat) :
    s.writeBlock n = .ok as ↔ s.CanWrite n ∧ as = s.blockAddrs n :=
  checkBlock_ok_iff
    (p := fun ea => (ea ≤ 0xFFF ∨ s.cfg.addrPolicy = .wrap12) ∧
      (0x050 ≤ ea % 4096 ∨ s.cfg.fontWritePolicy = .allow)) (f := (· % 4096))
    (fun _ _ => by rw [checkWrite_ok_iff, and_assoc]) n _ as

theorem State.mem_blockAddrs {s : State} {n a : Nat} : a ∈ s.blockAddrs n ↔ ∃ k, k < n ∧ s.blockAddr k = a := by
  simp [State.blockAddrs]

theorem State.blockAddr_lt (s : State) (k : Nat) : s.blockAddr k < memSize := Nat.mod_lt _ (by decide)

/-- A block of at most 4096 bytes meets no address twice. -/
theorem State.blockAddrs_nodup (s : State) {n : Nat} (hn : n ≤ 4096) : (s.blockAddrs n).Nodup := by
  refine List.nodup_range.map_on ?_
  intro j hj k hk h
  simp only [List.mem_range] at hj hk
  simp only [State.blockAddr] at h
  omega

/-- `CheckFetch` succeeds exactly where both bytes exist or wrap and the first lies in program space. -/
theorem checkFetch_ok_iff {pc : Nat} {p : Nat × Nat} :
    checkFetch c pc = .ok p ↔
      (pc + 1 ≤ 0xFFF ∨ c.addrPolicy = .wrap12) ∧ (programStart ≤ pc % 4096 ∨ c.lowFetchPolicy = .allow) ∧
        p = (pc % 4096, (pc + 1) % 4096) := by
  unfold checkFetch
  split
  next e h =>
    obtain ⟨h1, h2, -⟩ := checkAddr_error_iff.1 h
    simp [h2]; omega
  next a0 h =>
    obtain ⟨h1, rfl⟩ := checkAddr_ok_iff.1 h
    split
    next e h' =>
      obtain ⟨h2, h3, -⟩ := checkAddr_error_iff.1 h'
      simp [h3]; omega
    next a1 h' =>
      obtain ⟨h2, rfl⟩ := checkAddr_ok_iff.1 h'
      cases hp : c.lowFetchPolicy
      · by_cases hf : pc % 4096 < programStart
        · rw [if_pos ⟨rfl, hf⟩]; simp; omega
        · rw [if_neg (fun h => hf h.2)]
          simp only [h2, Except.ok.injEq, reduceCtorEq, or_false, true_and, not_lt.1 hf]
          exact eq_comm
      · simp only [h2, reduceCtorEq, false_and, if_false, Except.ok.injEq, or_true, true_and]; exact eq_comm

/-- A running block that fetched has `pc` inside memory where addresses do not wrap. -/
theorem State.pc_of_fetch {s : State} {w : Word} (h : s.fetch = .ok w) (hp : s.cfg.addrPolicy = .fault) :
    s.pc.toNat ≤ 0xFFE := by
  unfold State.fetch at h
  split at h
  · cases h
  next a0 a1 hc =>
    rcases (checkFetch_ok_iff.1 hc).1 with h' | h'
    · omega
    · rw [hp] at h'; cases h'

/-- `KeyIndex` answers the low nibble wherever it answers. -/
theorem keyIndex_ok_iff {v : Byte} {k : Nibble} :
    keyIndex c v = .ok k ↔ (v.toNat ≤ 0xF ∨ c.keyPolicy = .lowNibble) ∧ k = v.setWidth 4 := by
  unfold keyIndex
  split
  next h => simp [h, eq_comm]
  next h =>
    split <;> rename_i hp
    · simp [h, hp]
    · simp [hp, eq_comm]

theorem keyIndex_error_iff {v : Byte} {e : Cause} :
    keyIndex c v = .error e ↔ 0xF < v.toNat ∧ c.keyPolicy = .fault ∧ e = .invalidKey v := by
  unfold keyIndex
  split
  next h => simp; omega
  next h =>
    have : 0xF < v.toNat := by omega
    split <;> rename_i hp
    · simp [this, hp, eq_comm]
    · simp [hp]

end Sys2Proof.Machine
end

