-- ==== Sys2Proof/Laws/Decoding.lean ====
section
/-! SUPPORT. The fields of a word built from its digits, and a word built again from its fields (30_encoding.md R48). -/

namespace Sys2Proof

theorem nibbles_toNat (a b c d : Nibble) :
    (nibbles a b c d).toNat = a.toNat * 4096 + b.toNat * 256 + c.toNat * 16 + d.toNat := by
  have := b.isLt
  have := c.isLt
  have := d.isLt
  show (a ++ b ++ c ++ d : BitVec (4 + 4 + 4 + 4)).toNat = _
  simp only [BitVec.toNat_append]
  repeat rw [← Nat.shiftLeft_add_eq_or_of_lt (by assumption)]
  simp only [Nat.shiftLeft_eq]
  omega

theorem nibByte_toNat (a b : Nibble) (d : Byte) :
    (nibByte a b d).toNat = a.toNat * 4096 + b.toNat * 256 + d.toNat := by
  have := b.isLt
  have := d.isLt
  show (a ++ b ++ d : BitVec (4 + 4 + 8)).toNat = _
  simp only [BitVec.toNat_append]
  repeat rw [← Nat.shiftLeft_add_eq_or_of_lt (by assumption)]
  simp only [Nat.shiftLeft_eq]
  omega

theorem nibAddr_toNat (a : Nibble) (d : Addr) : (nibAddr a d).toNat = a.toNat * 4096 + d.toNat := by
  have := d.isLt
  show (a ++ d : BitVec (4 + 12)).toNat = _
  simp only [BitVec.toNat_append]
  rw [← Nat.shiftLeft_add_eq_or_of_lt (by assumption)]
  simp only [Nat.shiftLeft_eq]

theorem wordOfBytes_toNat (hi lo : Byte) : (wordOfBytes hi lo).toNat = hi.toNat * 256 + lo.toNat := by
  have := lo.isLt
  show (hi ++ lo : BitVec (8 + 8)).toNat = _
  simp only [BitVec.toNat_append]
  rw [← Nat.shiftLeft_add_eq_or_of_lt (by assumption)]
  simp only [Nat.shiftLeft_eq]

/-! ### Fields as numbers -/

theorem opOf_toNat (w : Word) : (opOf w).toNat = w.toNat / 4096 := by
  have := w.isLt
  rw [opOf, BitVec.extractLsb'_toNat, Nat.shiftRight_eq_div_pow]; omega
theorem xOf_toNat (w : Word) : (xOf w).toNat = w.toNat / 256 % 16 := by
  rw [xOf, BitVec.extractLsb'_toNat, Nat.shiftRight_eq_div_pow]
theorem yOf_toNat (w : Word) : (yOf w).toNat = w.toNat / 16 % 16 := by
  rw [yOf, BitVec.extractLsb'_toNat, Nat.shiftRight_eq_div_pow]
theorem nOf_toNat (w : Word) : (nOf w).toNat = w.toNat % 16 := by
  rw [nOf, BitVec.extractLsb'_toNat, Nat.shiftRight_eq_div_pow]; simp
theorem nnOf_toNat (w : Word) : (nnOf w).toNat = w.toNat % 256 := by
  rw [nnOf, BitVec.extractLsb'_toNat, Nat.shiftRight_eq_div_pow]; simp
theorem nnnOf_toNat (w : Word) : (nnnOf w).toNat = w.toNat % 4096 := by
  rw [nnnOf, BitVec.extractLsb'_toNat, Nat.shiftRight_eq_div_pow]; simp

/-! ### Fields of a word written digit by digit -/

section
variable (a b c d : Nibble)

@[simp] theorem opOf_nibbles : opOf (nibbles a b c d) = a :=
  BitVec.eq_of_toNat_eq (by rw [opOf_toNat, nibbles_toNat]; omega)
@[simp] theorem xOf_nibbles : xOf (nibbles a b c d) = b :=
  BitVec.eq_of_toNat_eq (by rw [xOf_toNat, nibbles_toNat]; omega)
@[simp] theorem yOf_nibbles : yOf (nibbles a b c d) = c :=
  BitVec.eq_of_toNat_eq (by rw [yOf_toNat, nibbles_toNat]; omega)
@[simp] theorem nOf_nibbles : nOf (nibbles a b c d) = d :=
  BitVec.eq_of_toNat_eq (by rw [nOf_toNat, nibbles_toNat]; omega)
@[simp] theorem opOf_nibByte (e : Byte) : opOf (nibByte a b e) = a :=
  BitVec.eq_of_toNat_eq (by rw [opOf_toNat, nibByte_toNat]; omega)
@[simp] theorem xOf_nibByte (e : Byte) : xOf (nibByte a b e) = b :=
  BitVec.eq_of_toNat_eq (by rw [xOf_toNat, nibByte_toNat]; omega)
@[simp] theorem nnOf_nibByte (e : Byte) : nnOf (nibByte a b e) = e :=
  BitVec.eq_of_toNat_eq (by rw [nnOf_toNat, nibByte_toNat]; omega)
@[simp] theorem opOf_nibAddr (e : Addr) : opOf (nibAddr a e) = a :=
  BitVec.eq_of_toNat_eq (by rw [opOf_toNat, nibAddr_toNat]; omega)
@[simp] theorem nnnOf_nibAddr (e : Addr) : nnnOf (nibAddr a e) = e :=
  BitVec.eq_of_toNat_eq (by rw [nnnOf_toNat, nibAddr_toNat]; omega)

end

/-! ### A word is its fields -/

theorem nibbles_fields (w : Word) : nibbles (opOf w) (xOf w) (yOf w) (nOf w) = w :=
  BitVec.eq_of_toNat_eq (by rw [nibbles_toNat, opOf_toNat, xOf_toNat, yOf_toNat, nOf_toNat]; omega)
theorem nibByte_fields (w : Word) : nibByte (opOf w) (xOf w) (nnOf w) = w :=
  BitVec.eq_of_toNat_eq (by rw [nibByte_toNat, opOf_toNat, xOf_toNat, nnOf_toNat]; omega)
theorem nibAddr_fields (w : Word) : nibAddr (opOf w) (nnnOf w) = w :=
  BitVec.eq_of_toNat_eq (by rw [nibAddr_toNat, opOf_toNat, nnnOf_toNat]; omega)

/-! ### The masks of the opcode map -/

theorem and_mask_op (w : Word) : w &&& 0xF000 = nibAddr (opOf w) 0 := by
  apply BitVec.eq_of_getLsbD_eq
  intro i hi
  show (w &&& 0xF000#16).getLsbD i = (opOf w ++ (0#12) : BitVec (4 + 12)).getLsbD i
  simp only [BitVec.getLsbD_append, BitVec.getLsbD_and]
  interval_cases i <;> simp [opOf]

theorem and_mask_op_n (w : Word) : w &&& 0xF00F = nibbles (opOf w) 0 0 (nOf w) := by
  apply BitVec.eq_of_getLsbD_eq
  intro i hi
  show (w &&& 0xF00F#16).getLsbD i = (opOf w ++ 0#4 ++ 0#4 ++ nOf w : BitVec (4 + 4 + 4 + 4)).getLsbD i
  simp only [BitVec.getLsbD_append, BitVec.getLsbD_and]
  interval_cases i <;> simp [opOf, nOf]

theorem and_mask_op_nn (w : Word) : w &&& 0xF0FF = nibByte (opOf w) 0 (nnOf w) := by
  apply BitVec.eq_of_getLsbD_eq
  intro i hi
  show (w &&& 0xF0FF#16).getLsbD i = (opOf w ++ 0#4 ++ nnOf w : BitVec (4 + 4 + 8)).getLsbD i
  simp only [BitVec.getLsbD_append, BitVec.getLsbD_and]
  interval_cases i <;> simp [opOf, nnOf]

theorem and_mask_all (w : Word) : w &&& 0xFFFF = w := by
  apply BitVec.eq_of_getLsbD_eq
  intro i hi
  rw [BitVec.getLsbD_and]
  interval_cases i <;> simp

/-- The bytes of a word, read back big-endian. -/
theorem wordOfBytes_bytes (w : Word) : wordOfBytes (w.extractLsb' 8 8) (w.extractLsb' 0 8) = w := by
  apply BitVec.eq_of_toNat_eq
  rw [wordOfBytes_toNat]
  simp only [BitVec.extractLsb'_toNat, Nat.shiftRight_eq_div_pow]
  omega

end Sys2Proof
end

