-- ==== Sys2Proof/Laws/Operands.lean ====
section
/-! SUPPORT. What the operand forms are as numbers, what a skip adds to `pc`, and what block stores and block loads leave in
memory and in the registers. -/

namespace Sys2Proof.Machine

@[simp] theorem addrOperand_toNat (nnn : Addr) : (addrOperand nnn).toNat = nnn.toNat := by
  simp [addrOperand]; omega

@[simp] theorem byteOperand_toNat (b : Byte) : (byteOperand b).toNat = b.toNat := by
  simp [byteOperand]; omega

@[simp] theorem fontAddress_toNat (d : Byte) : (fontAddress d).toNat = d.toNat * 5 := by
  have := d.isLt
  simp [fontAddress]; omega

theorem lowBitFlag_toNat (b : Byte) : (lowBitFlag b).toNat = b.toNat % 2 := by
  simp [lowBitFlag, Nat.and_one_is_mod]

theorem highBitFlag_toNat (a : Byte) : (highBitFlag a).toNat = a.toNat / 128 := by
  have := a.isLt
  simp [highBitFlag, Nat.and_one_is_mod, Nat.shiftRight_eq_div_pow]; omega

/-- A skip adds 4 or 2 to `pc`, modulo 2^16 (R57). -/
theorem State.skipIf_toNat (s : State) (cond : Bool) :
    (s.skipIf cond).pc.toNat = (s.pc.toNat + if cond then 4 else 2) % 65536 := by
  cases cond <;> simp [State.skipIf]

theorem State.bumpIndex_toNat (s : State) (x : Nibble) :
    (s.bumpIndex x).index.toNat = (s.index.toNat + x.toNat + 1) % 65536 := by
  have := x.isLt
  simp [State.bumpIndex]; omega

@[simp] theorem State.blockAddrs_length (s : State) (n : Nat) : (s.blockAddrs n).length = n := by
  simp [State.blockAddrs]

theorem State.zip_blockAddrs_lt {s : State} {n : Nat} {bs : List Byte} :
    ∀ w ∈ (s.blockAddrs n).zip bs, w.1 < memSize := by
  intro w hw
  obtain ⟨k, -, hk⟩ := State.mem_blockAddrs.1 (List.of_mem_zip hw).1
  rw [← hk]; exact s.blockAddr_lt k

/-- After a block store, byte `k` of the block holds byte `k` of what was stored. -/
theorem State.byteAt_storeBlock_on {s : State} (h : Memory.wf s.cfg s.mem = true) {n : Nat} {bs : List Byte}
    (hn : n ≤ 4096) (hb : bs.length = n) {k : Nat} (hk : k < n) :
    (s.storeBytes ((s.blockAddrs n).zip bs)).byteAt (s.blockAddr k) = bs[k] := by
  apply State.byteAt_storeBytes_on h State.zip_blockAddrs_lt
  · rw [List.map_fst_zip (by simp [hb])]
    exact s.blockAddrs_nodup hn
  · rw [List.mem_iff_getElem]
    exact ⟨k, by simp [hb, hk], by simp [State.blockAddrs]⟩

/-- After a block store, every byte outside the block is unchanged. -/
theorem State.byteAt_storeBlock_off {s : State} (h : Memory.wf s.cfg s.mem = true) {n : Nat} {bs : List Byte}
    (hb : bs.length = n) : BytesKept (s.blockAddrs n) s (s.storeBytes ((s.blockAddrs n).zip bs)) := by
  intro a ha
  apply State.byteAt_storeBytes_off h State.zip_blockAddrs_lt
  rwa [List.map_fst_zip (by simp [hb])]

@[simp] theorem State.regsUpTo_length (s : State) (x : Nibble) : (s.regsUpTo x).length = x.toNat + 1 := by
  have := x.isLt
  simp [State.regsUpTo]; omega

theorem State.regsUpTo_getElem (s : State) {x r : Nibble} (h : r.toNat ≤ x.toNat) :
    (s.regsUpTo x)[r.toNat]'(by rw [State.regsUpTo_length]; omega) = s.reg r := by
  simp [State.regsUpTo, State.reg]

/-- After a block load of V0..Vx, those registers hold the block's bytes and the others are unchanged (R86). -/
theorem State.reg_loadBlock (s : State) (x r : Nibble) :
    (s.loadRegs 0 (s.blockAddrs (x.toNat + 1))).reg r =
      if r.toNat ≤ x.toNat then s.byteAt (s.blockAddr r.toNat) else s.reg r := by
  have := x.isLt
  rw [State.reg_loadRegs _ _ _ (by rw [State.blockAddrs_length]; omega)]
  split
  next h =>
    rw [State.blockAddrs_length] at h
    rw [if_pos (by omega)]
    simp [State.blockAddrs]
  next h =>
    rw [State.blockAddrs_length] at h
    rw [if_neg (by omega)]

end Sys2Proof.Machine
end

