-- ==== Sys2Proof/Laws/Surface.lean ====
section
/-! SUPPORT. The laws of the display: a pixel after a write of one, and what drawing a row of a sprite does to every pixel. -/

namespace Sys2Proof.Machine

/-- Read after write, coordinates modulo 64 and 32. -/
theorem Surface.pixel_setPixel (d : Surface) (x y px py : Nat) (on : Bool) :
    (d.setPixel x y on).pixel px py = if px % 64 = x % 64 ∧ py % 32 = y % 32 then on else d.pixel px py := by
  unfold Surface.pixel Surface.setPixel
  by_cases h1 : px % 64 = x % 64
  · by_cases h2 : py % 32 = y % 32
    · simp [h1, h2]
    · simp [h1, h2, Ne.symm h2]
  · simp [h1, Ne.symm h1]

@[simp] theorem Surface.pixel_blank (px py : Nat) : Surface.blank.pixel px py = false := by
  simp [Surface.pixel, Surface.blank]

/-- Two surfaces with equal pixels are equal. -/
theorem Surface.ext_pixel {d e : Surface} (h : ∀ px py, d.pixel px py = e.pixel px py) : d = e := by
  apply Vector.ext
  intro i hi
  apply Vector.ext
  intro j hj
  simpa [Surface.pixel, Nat.mod_eq_of_lt hi, Nat.mod_eq_of_lt hj] using h i j

/-- Whether the columns `cs` of a byte drawn at `(x, y)` cover the pixel with a 1 bit. -/
def columnsCover (b : Byte) (x y : Nat) (cs : List Nat) (px py : Nat) : Bool :=
  py % 32 == y % 32 && cs.any fun c => b.getLsbD (7 - c) && px % 64 == (x + c) % 64

/-- Drawing columns that are distinct modulo 64 inverts the pixels covered, and collides exactly when one of those was
set. -/
theorem Surface.drawColumns_spec (b : Byte) (x y : Nat) (cs : List Nat)
    (hd : (cs.map fun c => (x + c) % 64).Nodup) (d : Surface) :
    (∀ px py, (Surface.drawColumns b x y cs d).1.pixel px py =
        (d.pixel px py ^^ columnsCover b x y cs px py)) ∧
      ((Surface.drawColumns b x y cs d).2 = true ↔
        ∃ px py, columnsCover b x y cs px py = true ∧ d.pixel px py = true) := by
  induction cs generalizing d with
  | nil => simp [Surface.drawColumns, columnsCover]
  | cons c cs ih =>
    simp only [List.map_cons, List.nodup_cons, List.mem_map, not_exists, not_and] at hd
    unfold Surface.drawColumns
    by_cases hb : b.getLsbD (7 - c) = true
    · have hcov : ∀ px py, columnsCover b x y (c :: cs) px py =
          ((py % 32 == y % 32 && px % 64 == (x + c) % 64) || columnsCover b x y cs px py) := by
        intro px py
        simp only [columnsCover, List.any_cons, hb, Bool.true_and]
        cases py % 32 == y % 32 <;> simp
      have hoff : ∀ px py, columnsCover b x y cs px py = true → px % 64 ≠ (x + c) % 64 := by
        intro px py h he
        simp only [columnsCover, Bool.and_eq_true, List.any_eq_true, beq_iff_eq] at h
        obtain ⟨-, c', hc', -, hx⟩ := h
        exact hd.1 c' hc' (by omega)
      obtain ⟨ih1, ih2⟩ := ih hd.2 (d.setPixel (x + c) y (!d.pixel (x + c) y))
      rw [if_pos hb]
      refine ⟨fun px py => ?_, ?_⟩
      · simp only [ih1, Surface.pixel_setPixel, hcov]
        by_cases hp : px % 64 = (x + c) % 64 ∧ py % 32 = y % 32
        · have h0 : columnsCover b x y cs px py = false := by
            by_contra h
            exact hoff px py (by simpa using h) hp.1
          have hsame : d.pixel (x + c) y = d.pixel px py := by simp only [Surface.pixel, hp.1, hp.2]
          simp [hp, h0, hsame]
        · rw [if_neg hp]
          have : (py % 32 == y % 32 && px % 64 == (x + c) % 64) = false := by
            by_contra h
            simp only [Bool.not_eq_false, Bool.and_eq_true, beq_iff_eq] at h
            exact hp ⟨h.2, h.1⟩
          simp [this]
      · simp only [Bool.or_eq_true, ih2, hcov, Surface.pixel_setPixel]
        constructor
        · rintro (h | ⟨px, py, h1, h2⟩)
          · exact ⟨x + c, y, by simp, h⟩
          · rw [if_neg (fun h => hoff px py h1 h.1)] at h2
            exact ⟨px, py, .inr h1, h2⟩
        · rintro ⟨px, py, h1 | h1, h2⟩
          · left
            simp only [Bool.and_eq_true, beq_iff_eq] at h1
            simpa only [Surface.pixel, h1.1, h1.2] using h2
          · exact .inr ⟨px, py, h1, by rw [if_neg (fun h => hoff px py h1 h.1)]; exact h2⟩
    · have hcov : ∀ px py, columnsCover b x y (c :: cs) px py = columnsCover b x y cs px py := by
        intro px py
        simp [columnsCover, hb]
      rw [if_neg hb]
      simp only [hcov]
      exact ih hd.2 d

/-- Whether a byte drawn at `(x, y)` covers the pixel with a 1 bit (R35). -/
def byteCovers (b : Byte) (x y px py : Nat) : Bool := columnsCover b x y (List.range 8) px py

/-- `drawByte` inverts the pixels covered, and collides exactly when one of those was set (R35). -/
theorem Surface.drawByte_spec (d : Surface) (b : Byte) (x y : Nat) :
    (∀ px py, (d.drawByte b x y).1.pixel px py = (d.pixel px py ^^ byteCovers b x y px py)) ∧
      ((d.drawByte b x y).2 = true ↔ ∃ px py, byteCovers b x y px py = true ∧ d.pixel px py = true) := by
  refine Surface.drawColumns_spec b x y (List.range 8) ?_ d
  refine (List.nodup_range).map_on ?_
  intro c hc c' hc' h
  simp only [List.mem_range] at hc hc'
  omega

/-- Whether the rows of a sprite at `(x, y)` cover the pixel with a 1 bit. -/
def rowsCover (x : Nat) : Nat → List Byte → Nat → Nat → Bool
  | _, [], _, _ => false
  | y, b :: bs, px, py => byteCovers b x y px py || rowsCover x (y + 1) bs px py

/-- The rows cover a pixel exactly when it lies in a row and a column of the sprite where the byte has a 1 bit (R35). -/
theorem rowsCover_iff {x y : Nat} {bs : List Byte} {px py : Nat} :
    rowsCover x y bs px py = true ↔
      ∃ r c, ∃ h : r < bs.length, c < 8 ∧ py % 32 = (y + r) % 32 ∧ px % 64 = (x + c) % 64 ∧
        bs[r].getLsbD (7 - c) = true := by
  induction bs generalizing y with
  | nil => simp [rowsCover]
  | cons b bs ih =>
    simp only [rowsCover, Bool.or_eq_true, ih, byteCovers, columnsCover, Bool.and_eq_true, beq_iff_eq,
      List.any_eq_true, List.mem_range]
    constructor
    · rintro (⟨hy, c, hc, hb, hx⟩ | ⟨r, c, hr, hc, hy, hx, hb⟩)
      · exact ⟨0, c, by simp, hc, hy, hx, hb⟩
      · exact ⟨r + 1, c, by simpa using hr, hc, by omega, hx, hb⟩
    · rintro ⟨r, c, hr, hc, hy, hx, hb⟩
      cases r with
      | zero => exact .inl ⟨hy, c, hc, hb, hx⟩
      | succ r => exact .inr ⟨r, c, by simpa using hr, hc, by omega, hx, hb⟩

/-- A pixel that rows cover lies in one of them. -/
theorem row_of_rowsCover {x y : Nat} {bs : List Byte} {px py : Nat} (h : rowsCover x y bs px py = true) :
    ∃ r, r < bs.length ∧ py % 32 = (y + r) % 32 := by
  induction bs generalizing y with
  | nil => simp [rowsCover] at h
  | cons b bs ih =>
    simp only [rowsCover, Bool.or_eq_true] at h
    rcases h with h | h
    · simp only [byteCovers, columnsCover, Bool.and_eq_true, beq_iff_eq] at h
      exact ⟨0, by simp, h.1⟩
    · obtain ⟨r, hr, hy⟩ := ih h
      exact ⟨r + 1, by simpa using hr, by omega⟩

/-- Drawing at most 32 rows inverts the pixels covered, and collides exactly when one of those was set (R59). -/
theorem Surface.drawRows_spec (x : Nat) (bs : List Byte) (y : Nat) (hn : bs.length ≤ 32) (d : Surface) :
    (∀ px py, (Surface.drawRows x y bs d).1.pixel px py = (d.pixel px py ^^ rowsCover x y bs px py)) ∧
      ((Surface.drawRows x y bs d).2 = true ↔ ∃ px py, rowsCover x y bs px py = true ∧ d.pixel px py = true) := by
  induction bs generalizing d y with
  | nil => simp [Surface.drawRows, rowsCover]
  | cons b bs ih =>
    simp only [List.length_cons] at hn
    obtain ⟨h1, h2⟩ := d.drawByte_spec b x y
    obtain ⟨i1, i2⟩ := ih (y + 1) (by omega) (d.drawByte b x y).1
    have hdisj : ∀ px py, rowsCover x (y + 1) bs px py = true → byteCovers b x y px py = false := by
      intro px py h
      obtain ⟨r, hr, hy⟩ := row_of_rowsCover h
      by_contra hc
      simp only [Bool.not_eq_false, byteCovers, columnsCover, Bool.and_eq_true, beq_iff_eq] at hc
      omega
    refine ⟨fun px py => ?_, ?_⟩
    · simp only [Surface.drawRows, i1, h1, rowsCover]
      have := hdisj px py
      cases hc : rowsCover x (y + 1) bs px py <;> simp_all
    · simp only [Surface.drawRows, Bool.or_eq_true, i2, h2, h1, rowsCover]
      constructor
      · rintro (⟨px, py, hc, hp⟩ | ⟨px, py, hc, hp⟩)
        · exact ⟨px, py, .inl hc, hp⟩
        · exact ⟨px, py, .inr hc, by simpa [hdisj px py hc] using hp⟩
      · rintro ⟨px, py, hc | hc, hp⟩
        · exact .inl ⟨px, py, hc, hp⟩
        · exact .inr ⟨px, py, hc, by simpa [hdisj px py hc] using hp⟩

end Sys2Proof.Machine
end

