-- ==== Sys2Proof/Laws/Steps.lean ====
section
/-! SUPPORT. What each shared operation of a step can do, said once: checked instructions, the stack, fetch and decode, a
step of the CPU, a transition of the machine, a reset. -/

namespace Sys2Proof.Machine

/-- A checked instruction goes on with what its checks answered, or enters the error they met. -/
theorem State.checked_next_iff {α : Type} {s t : State} {i : Instr} {r : Except Cause α} {k : α → State} :
    s.checked i r k = .next t ↔
      (∃ a, r = .ok a ∧ t = k a) ∨ (∃ e, r = .error e ∧ t = s.raise (some (encode i)) e) := by
  cases r <;> simp [State.checked, eq_comm]

theorem State.checked_ok {α : Type} {s : State} {i : Instr} {r : Except Cause α} {k : α → State} {a : α}
    (h : r = .ok a) : s.checked i r k = .next (k a) := by
  rw [h]; rfl

theorem State.checked_error {α : Type} {s : State} {i : Instr} {r : Except Cause α} {k : α → State} {e : Cause}
    (h : r = .error e) : s.checked i r k = .next (s.raise (some (encode i)) e) := by
  rw [h]; rfl

/-- A checked instruction always answers a next state. -/
theorem State.checked_total {α : Type} (s : State) (i : Instr) (r : Except Cause α) (k : α → State) :
    ∃ t, s.checked i r k = .next t := by
  cases r
  · exact ⟨_, rfl⟩
  · exact ⟨_, rfl⟩

/-- Every instruction answers a next state: no instruction stops the machine. -/
theorem exec_total (i : Instr) (s : State) : ∃ t, exec i s = .next t := by
  cases i <;> first
    | exact ⟨_, rfl⟩
    | exact State.checked_total _ _ _ _
    | (simp only [exec, execLdVxK]; split <;> exact ⟨_, rfl⟩)

theorem pushed_ok_iff {d : Nat} {k k' : List Word} {v : Word} :
    pushed d k v = .ok k' ↔ k.length < d ∧ k' = k ++ [v] := by
  unfold pushed
  split
  next h => simp [h, eq_comm]
  next h => simp [h]

theorem pushed_error_iff {d : Nat} {k : List Word} {v : Word} {e : Cause} :
    pushed d k v = .error e ↔ d ≤ k.length ∧ e = .stackOverflow := by
  unfold pushed
  split
  next h => simp; omega
  next h => simp [eq_comm]; omega

theorem popped_ok_iff {k : List Word} {p : Word × List Word} : popped k = .ok p ↔ k = p.2 ++ [p.1] := by
  obtain ⟨v, k'⟩ := p
  unfold popped
  split
  next w h =>
    obtain ⟨ys, rfl⟩ := List.getLast?_eq_some_iff.1 h
    simp [and_comm]
  next h =>
    rw [List.getLast?_eq_none_iff] at h
    simp [h]

theorem popped_error_iff {k : List Word} {e : Cause} : popped k = .error e ↔ k = [] ∧ e = .stackUnderflow := by
  unfold popped
  split
  next w h =>
    have : k ≠ [] := by rintro rfl; simp at h
    simp [this]
  next h =>
    rw [List.getLast?_eq_none_iff] at h
    simp [h, eq_comm]

/-- Fetch and decode: an instruction whose word is the one in memory, or one of the two errors. -/
theorem State.fetchDecode_cases (s : State) :
    (∃ w i, s.fetch = .ok w ∧ decodeWord w = some i ∧ s.fetchDecode = .ok i) ∨
      (∃ w, s.fetch = .ok w ∧ decodeWord w = none ∧
        s.fetchDecode = .error (s.raise (some w) .unrecognizedOpcode)) ∨
      (∃ e, s.fetch = .error e ∧ s.fetchDecode = .error (s.raise none e)) := by
  unfold State.fetchDecode
  cases hf : s.fetch with
  | error e => exact .inr (.inr ⟨e, rfl, rfl⟩)
  | ok w =>
    cases hd : decodeWord w with
    | none => exact .inr (.inl ⟨w, rfl, hd, by simp only [hd]⟩)
    | some i => exact .inl ⟨w, i, rfl, hd, by simp only [hd]⟩

/-- What a step of the CPU can do (R55, R101–R103). -/
theorem cpuStep_cases (s : State) :
    (∃ e, s.status = .halted e ∧ cpuStep s = .next s) ∨
      (s.status = .running ∧
        ((∃ w i, s.fetch = .ok w ∧ decodeWord w = some i ∧ cpuStep s = exec i s) ∨
          (∃ w, s.fetch = .ok w ∧ decodeWord w = none ∧
            cpuStep s = .next (s.raise (some w) .unrecognizedOpcode)) ∨
          (∃ e, s.fetch = .error e ∧ cpuStep s = .next (s.raise none e)))) := by
  cases hs : s.status with
  | halted e => exact .inl ⟨e, rfl, by rw [cpuStep, hs]⟩
  | running =>
    refine .inr ⟨rfl, ?_⟩
    rcases s.fetchDecode_cases with ⟨w, i, h1, h2, h3⟩ | ⟨w, h1, h2, h3⟩ | ⟨e, h1, h3⟩
    · exact .inl ⟨w, i, h1, h2, by rw [cpuStep, hs, h3]⟩
    · exact .inr (.inl ⟨w, h1, h2, by rw [cpuStep, hs, h3]⟩)
    · exact .inr (.inr ⟨e, h1, by rw [cpuStep, hs, h3]⟩)

/-- A step of the CPU always answers a next state. -/
theorem cpuStep_total (s : State) : ∃ t, cpuStep s = .next t := by
  rcases cpuStep_cases s with ⟨e, -, h⟩ | ⟨-, ⟨w, i, -, -, h⟩ | ⟨w, -, -, h⟩ | ⟨e, -, h⟩⟩
  · exact ⟨s, h⟩
  · rw [h]; exact exec_total i s
  · exact ⟨_, h⟩
  · exact ⟨_, h⟩

/-- When the CPU's step comes next, a transition is that step. -/
theorem step_of_cpuTurn {s t : State} (h : s.cpuTurn = some t) : step s = cpuStep t := by
  unfold State.cpuTurn at h
  unfold step
  cases ha : s.agenda with
  | nil => simp only [ha, Option.some.injEq] at h; rw [h]
  | cons e rest =>
    cases e <;> simp only [ha, Option.some.injEq, reduceCtorEq] at h
    rw [← h]; rfl

/-- What a transition of the machine can do (R113). -/
theorem step_cases (s : State) :
    (∃ t, s.cpuTurn = some t ∧ step s = cpuStep t) ∨
      (∃ rest, s.agenda = .tick :: rest ∧ step s = .next (s.setAgenda rest).tick) ∨
      (∃ k p rest, s.agenda = .key k p :: rest ∧ step s = .next ((s.setAgenda rest).setKey k p)) ∨
      (∃ rom rest, s.agenda = .reset rom :: rest ∧ step s = (s.setAgenda rest).hostReset rom) := by
  cases ha : s.agenda with
  | nil =>
    have h : s.cpuTurn = some s := by rw [State.cpuTurn, ha]
    exact .inl ⟨s, h, step_of_cpuTurn h⟩
  | cons e rest =>
    cases e with
    | step =>
      have h : s.cpuTurn = some (s.setAgenda rest) := by rw [State.cpuTurn, ha]
      exact .inl ⟨_, h, step_of_cpuTurn h⟩
    | tick => exact .inr (.inl ⟨rest, rfl, by rw [step, ha]; rfl⟩)
    | key k p => exact .inr (.inr (.inl ⟨k, p, rest, rfl, by rw [step, ha]; rfl⟩))
    | reset rom => exact .inr (.inr (.inr ⟨rom, rest, rfl, by rw [step, ha]; rfl⟩))

/-- The CPU's turn differs from the state in the agenda alone. -/
theorem State.cpuTurn_rest {s t : State} (h : s.cpuTurn = some t) : t = s.setAgenda s.agenda.tail := by
  unfold State.cpuTurn at h
  split at h
  next ha => simp only [Option.some.injEq] at h; subst h; rw [ha]; cases s; simp_all [State.setAgenda]
  next ha => simp only [Option.some.injEq] at h; rw [← h, ha]; rfl
  next => cases h

/-! ### Tick and reset -/

/-- A tick counts the delay timer down and stops at 0. -/
@[simp] theorem State.tick_dt_toNat (s : State) : s.tick.dt.toNat = s.dt.toNat - 1 := by
  have := s.dt.isLt
  simp [State.tick]; omega

/-- A tick counts the sound timer down and stops at 0. -/
@[simp] theorem State.tick_st_toNat (s : State) : s.tick.st.toNat = s.st.toNat - 1 := by
  have := s.st.isLt
  simp [State.tick]; omega

/-- A reset is accepted exactly when its image fits (R117). -/
theorem State.hostReset_of_fits {s : State} {rom : List Byte} (h : rom.length ≤ 3584) :
    s.hostReset rom = .next (s.resetWith rom) := by
  simp [State.hostReset, romFits, h]

/-- Loading an image touches nothing but memory. -/
theorem State.loadRom_rest (s : State) (a : Nat) (rom : List Byte) : ∃ m, s.loadRom a rom = { s with mem := m } := by
  induction rom generalizing s a with
  | nil => exact ⟨s.mem, rfl⟩
  | cons b bs ih =>
    obtain ⟨m, hm⟩ := ih (s.storeByte a b) (a + 1)
    exact ⟨m, by rw [State.loadRom, hm]; rfl⟩

/-- Loading an image inside memory keeps the canonical form, and each byte of memory is the image's or as before. -/
theorem State.loadRom_spec (rom : List Byte) (s : State) (a : Nat) (h : Memory.wf s.cfg s.mem = true)
    (hr : a + rom.length ≤ memSize) :
    Memory.wf s.cfg (s.loadRom a rom).mem = true ∧
      ∀ z, (s.loadRom a rom).byteAt z =
        if hz : a ≤ z ∧ z < a + rom.length then rom[z - a]'(by omega) else s.byteAt z := by
  induction rom generalizing s a with
  | nil => exact ⟨h, fun z => by rw [dif_neg (by simp)]; rfl⟩
  | cons b bs ih =>
    simp only [List.length_cons] at hr
    obtain ⟨h1, h2⟩ := ih (s.storeByte a b) (a + 1) (Memory.write_wf h (by omega)) (by omega)
    refine ⟨h1, fun z => ?_⟩
    rw [State.loadRom, h2]
    by_cases hz : a + 1 ≤ z ∧ z < a + 1 + bs.length
    · rw [dif_pos hz, dif_pos (by simp; omega), List.getElem_cons, dif_neg (by omega)]
      congr 1
    · rw [dif_neg hz, State.byteAt_storeByte h]
      by_cases hza : z = a
      · subst hza; simp
      · rw [if_neg hza, dif_neg (by simp; omega)]

/-- The state after a reset is that of power on, but for memory and the model's own numbering and agenda. -/
theorem State.resetWith_rest (s : State) (rom : List Byte) :
    ∃ m, s.resetWith rom = { State.powerOn s.cfg with mem := m, draws := s.draws, agenda := s.agenda } := by
  obtain ⟨m, hm⟩ := State.loadRom_rest { State.powerOn s.cfg with draws := s.draws, agenda := s.agenda } programStart rom
  exact ⟨m, by rw [State.resetWith, hm]⟩

/-- A byte of memory after a reset: the image's, or what reset leaves there (R115–R117). -/
theorem State.byteAt_resetWith (s : State) (rom : List Byte) (h : rom.length ≤ 3584) (z : Nat) :
    (s.resetWith rom).byteAt z =
      if hz : 0x200 ≤ z ∧ z < 0x200 + rom.length then rom[z - 0x200]'(by omega) else initialByte s.cfg z :=
  (State.loadRom_spec rom { State.powerOn s.cfg with draws := s.draws, agenda := s.agenda } programStart rfl
    (by simp only [programStart, memSize]; omega)).2 z

end Sys2Proof.Machine
end

