-- ==== Sys2Proof/Laws/Frames.lean ====
section
/-! SUPPORT. Frames: from unchanged fields to unchanged parts, and the frames of the shared operations. -/

namespace Sys2Proof.Machine

variable {s t : State} {ps : List Part}

/-- A field is listed or unchanged: then no part outside the list changes. Where `t` is written with the named field
updates and `ps` as a literal list, every argument is found. -/
theorem onlyChanges_of
    (hv : .v ∈ ps ∨ t.v = s.v := by first | exact .inr rfl | (left; decide))
    (hpc : .pc ∈ ps ∨ t.pc = s.pc := by first | exact .inr rfl | (left; decide))
    (hindex : .index ∈ ps ∨ t.index = s.index := by first | exact .inr rfl | (left; decide))
    (hstack : .stack ∈ ps ∨ t.stack = s.stack := by first | exact .inr rfl | (left; decide))
    (hmem : .mem ∈ ps ∨ t.mem = s.mem := by first | exact .inr rfl | (left; decide))
    (hdisp : .disp ∈ ps ∨ t.disp = s.disp := by first | exact .inr rfl | (left; decide))
    (hdt : .dt ∈ ps ∨ t.dt = s.dt := by first | exact .inr rfl | (left; decide))
    (hst : .st ∈ ps ∨ t.st = s.st := by first | exact .inr rfl | (left; decide))
    (hkeys : .keys ∈ ps ∨ t.keys = s.keys := by first | exact .inr rfl | (left; decide))
    (hstatus : .status ∈ ps ∨ t.status = s.status := by first | exact .inr rfl | (left; decide))
    (hcfg : t.cfg = s.cfg := by rfl)
    (hframes : .frames ∈ ps ∨ t.frames = s.frames := by first | exact .inr rfl | (left; decide))
    (hdraws : .draws ∈ ps ∨ t.draws = s.draws := by first | exact .inr rfl | (left; decide))
    (hagenda : .agenda ∈ ps ∨ t.agenda = s.agenda := by first | exact .inr rfl | (left; decide)) :
    OnlyChanges ps s t := by
  intro p hp
  cases p
  case v => intro r; simp only [State.reg, hv.resolve_left hp]
  case mem => intro a; simp only [State.byteAt, hmem.resolve_left hp, hcfg]
  case disp => intro x y; simp only [State.pixel, hdisp.resolve_left hp]
  case keys => intro k; simp only [State.keyPressed, hkeys.resolve_left hp]
  case pc => exact hpc.resolve_left hp
  case index => exact hindex.resolve_left hp
  case stack => exact hstack.resolve_left hp
  case dt => exact hdt.resolve_left hp
  case st => exact hst.resolve_left hp
  case status => exact hstatus.resolve_left hp
  case cfg => exact hcfg
  case frames => exact hframes.resolve_left hp
  case draws => exact hdraws.resolve_left hp
  case agenda => exact hagenda.resolve_left hp

/-- A longer list allows more. -/
theorem OnlyChanges.mono {qs : List Part} (h : OnlyChanges ps s t) (hs : ∀ p ∈ ps, p ∈ qs) : OnlyChanges qs s t :=
  fun p hp => h p fun hm => hp (hs p hm)

/-- Nothing changes from a state to itself. -/
theorem OnlyChanges.refl (ps : List Part) (s : State) : OnlyChanges ps s s := onlyChanges_of

/-- Error entry changes the status alone (R102). -/
theorem State.raise_onlyChanges (s : State) (w : Option Word) (c : Cause) : OnlyChanges [.status] s (s.raise w c) :=
  onlyChanges_of

/-- The record that error entry writes names the instruction's `pc` and the word given. -/
theorem State.raise_record (s : State) (w : Option Word) (c : Cause) {e : ErrorRecord}
    (h : (s.raise w c).status = .halted e) : e.pc = s.pc ∧ e.word = w := by
  simp only [State.raise, State.setStatus_status, Status.halted.injEq] at h
  subst h
  cases c <;> exact ⟨rfl, rfl⟩

/-- What follows stores changes memory beside what it changes itself. -/
theorem State.storeBytes_onlyChanges (s : State) (ws : List (Nat × Byte)) (f : State → State)
    (h : ∀ m, OnlyChanges ps s (f { s with mem := m })) : OnlyChanges ps s (f (s.storeBytes ws)) := by
  obtain ⟨m, hm⟩ := s.storeBytes_rest ws
  rw [hm]
  exact h m

/-- What follows a block load changes registers beside what it changes itself. -/
theorem State.loadRegs_onlyChanges (s : State) (as : List Nat) (k : Nat) (f : State → State)
    (h : ∀ v, OnlyChanges ps s (f { s with v := v })) : OnlyChanges ps s (f (s.loadRegs k as)) := by
  obtain ⟨v, hv⟩ := s.loadRegs_rest as k
  rw [hv]
  exact h v

/-- Every register but the one written is kept. -/
theorem regsKept_setReg (s : State) (x : Nibble) (b : Byte) : RegsKept [x] s (s.setReg x b) := by
  intro r hr
  exact s.reg_setReg_other b (by simpa using hr)

/-- Flag first, result second: what every register holds after. -/
theorem State.reg_flagThenResult (s : State) (x r : Nibble) (f b : Byte) :
    (s.flagThenResult x f b).reg r = if r = x then b else if r = 0xF then f else s.reg r := by
  simp only [State.flagThenResult, State.reg_setReg, vf]

/-- Result first, flag second: what every register holds after. -/
theorem State.reg_resultThenFlag (s : State) (x r : Nibble) (b f : Byte) :
    (s.resultThenFlag x b f).reg r = if r = 0xF then f else if r = x then b else s.reg r := by
  simp only [State.resultThenFlag, State.reg_setReg, vf]

/-- Every register but the two written is kept. -/
theorem regsKept_flagThenResult (s : State) (x : Nibble) (f b : Byte) : RegsKept [x, 0xF] s (s.flagThenResult x f b) := by
  intro r hr
  simp only [List.mem_cons, List.not_mem_nil, or_false, not_or] at hr
  rw [State.reg_flagThenResult, if_neg hr.1, if_neg hr.2]

theorem regsKept_resultThenFlag (s : State) (x : Nibble) (b f : Byte) : RegsKept [x, 0xF] s (s.resultThenFlag x b f) := by
  intro r hr
  simp only [List.mem_cons, List.not_mem_nil, or_false, not_or] at hr
  rw [State.reg_resultThenFlag, if_neg hr.2, if_neg hr.1]

end Sys2Proof.Machine
end

