-- ==== Sys2Proof/Laws/PerInstr.lean ====
section
/-! SUPPORT. Per instruction: its word is the instruction of its own row of the opcode map (30_encoding.md R50). -/

namespace Sys2Proof.Laws.TableRow

/-- The instruction's word has the fixed bits of the row that bears its mnemonic. -/
def Statement (i : Instr) : Prop :=
  ∃ r ∈ opcodeTable, r.mnemonic = i.mnemonic ∧ encode i &&& r.mask = r.matchBits

theorem cls : Statement .cls :=
  ⟨⟨"CLS", 0x00E0, 0xFFFF⟩, by decide, rfl, by decide⟩
theorem ret : Statement .ret :=
  ⟨⟨"RET", 0x00EE, 0xFFFF⟩, by decide, rfl, by decide⟩
theorem jp (nnn : Addr) : Statement (.jp nnn) :=
  ⟨⟨"JP", 0x1000, 0xF000⟩, by decide, rfl, by rw [and_mask_op]; simp [encode]; decide⟩
theorem call (nnn : Addr) : Statement (.call nnn) :=
  ⟨⟨"CALL", 0x2000, 0xF000⟩, by decide, rfl, by rw [and_mask_op]; simp [encode]; decide⟩
theorem seByte (x : Nibble) (nn : Byte) : Statement (.seByte x nn) :=
  ⟨⟨"SE_BYTE", 0x3000, 0xF000⟩, by decide, rfl, by rw [and_mask_op]; simp [encode]; decide⟩
theorem sneByte (x : Nibble) (nn : Byte) : Statement (.sneByte x nn) :=
  ⟨⟨"SNE_BYTE", 0x4000, 0xF000⟩, by decide, rfl, by rw [and_mask_op]; simp [encode]; decide⟩
theorem seReg (x y : Nibble) : Statement (.seReg x y) :=
  ⟨⟨"SE_REG", 0x5000, 0xF00F⟩, by decide, rfl, by rw [and_mask_op_n]; simp [encode]; decide⟩
theorem ldByte (x : Nibble) (nn : Byte) : Statement (.ldByte x nn) :=
  ⟨⟨"LD_BYTE", 0x6000, 0xF000⟩, by decide, rfl, by rw [and_mask_op]; simp [encode]; decide⟩
theorem addByte (x : Nibble) (nn : Byte) : Statement (.addByte x nn) :=
  ⟨⟨"ADD_BYTE", 0x7000, 0xF000⟩, by decide, rfl, by rw [and_mask_op]; simp [encode]; decide⟩
theorem ldReg (x y : Nibble) : Statement (.ldReg x y) :=
  ⟨⟨"LD_REG", 0x8000, 0xF00F⟩, by decide, rfl, by rw [and_mask_op_n]; simp [encode]; decide⟩
theorem orReg (x y : Nibble) : Statement (.orReg x y) :=
  ⟨⟨"OR", 0x8001, 0xF00F⟩, by decide, rfl, by rw [and_mask_op_n]; simp [encode]; decide⟩
theorem andReg (x y : Nibble) : Statement (.andReg x y) :=
  ⟨⟨"AND", 0x8002, 0xF00F⟩, by decide, rfl, by rw [and_mask_op_n]; simp [encode]; decide⟩
theorem xorReg (x y : Nibble) : Statement (.xorReg x y) :=
  ⟨⟨"XOR", 0x8003, 0xF00F⟩, by decide, rfl, by rw [and_mask_op_n]; simp [encode]; decide⟩
theorem addReg (x y : Nibble) : Statement (.addReg x y) :=
  ⟨⟨"ADD_REG", 0x8004, 0xF00F⟩, by decide, rfl, by rw [and_mask_op_n]; simp [encode]; decide⟩
theorem sub (x y : Nibble) : Statement (.sub x y) :=
  ⟨⟨"SUB", 0x8005, 0xF00F⟩, by decide, rfl, by rw [and_mask_op_n]; simp [encode]; decide⟩
theorem shr (x y : Nibble) : Statement (.shr x y) :=
  ⟨⟨"SHR", 0x8006, 0xF00F⟩, by decide, rfl, by rw [and_mask_op_n]; simp [encode]; decide⟩
theorem subn (x y : Nibble) : Statement (.subn x y) :=
  ⟨⟨"SUBN", 0x8007, 0xF00F⟩, by decide, rfl, by rw [and_mask_op_n]; simp [encode]; decide⟩
theorem shl (x y : Nibble) : Statement (.shl x y) :=
  ⟨⟨"SHL", 0x800E, 0xF00F⟩, by decide, rfl, by rw [and_mask_op_n]; simp [encode]; decide⟩
theorem sneReg (x y : Nibble) : Statement (.sneReg x y) :=
  ⟨⟨"SNE_REG", 0x9000, 0xF00F⟩, by decide, rfl, by rw [and_mask_op_n]; simp [encode]; decide⟩
theorem ldI (nnn : Addr) : Statement (.ldI nnn) :=
  ⟨⟨"LD_I", 0xA000, 0xF000⟩, by decide, rfl, by rw [and_mask_op]; simp [encode]; decide⟩
theorem jpV0 (nnn : Addr) : Statement (.jpV0 nnn) :=
  ⟨⟨"JP_V0", 0xB000, 0xF000⟩, by decide, rfl, by rw [and_mask_op]; simp [encode]; decide⟩
theorem rnd (x : Nibble) (nn : Byte) : Statement (.rnd x nn) :=
  ⟨⟨"RND", 0xC000, 0xF000⟩, by decide, rfl, by rw [and_mask_op]; simp [encode]; decide⟩
theorem drw (x y n : Nibble) : Statement (.drw x y n) :=
  ⟨⟨"DRW", 0xD000, 0xF000⟩, by decide, rfl, by rw [and_mask_op]; simp [encode]; decide⟩
theorem skp (x : Nibble) : Statement (.skp x) :=
  ⟨⟨"SKP", 0xE09E, 0xF0FF⟩, by decide, rfl, by rw [and_mask_op_nn]; simp [encode]; decide⟩
theorem sknp (x : Nibble) : Statement (.sknp x) :=
  ⟨⟨"SKNP", 0xE0A1, 0xF0FF⟩, by decide, rfl, by rw [and_mask_op_nn]; simp [encode]; decide⟩
theorem ldVxDt (x : Nibble) : Statement (.ldVxDt x) :=
  ⟨⟨"LD_VX_DT", 0xF007, 0xF0FF⟩, by decide, rfl, by rw [and_mask_op_nn]; simp [encode]; decide⟩
theorem ldVxK (x : Nibble) : Statement (.ldVxK x) :=
  ⟨⟨"LD_VX_K", 0xF00A, 0xF0FF⟩, by decide, rfl, by rw [and_mask_op_nn]; simp [encode]; decide⟩
theorem ldDtVx (x : Nibble) : Statement (.ldDtVx x) :=
  ⟨⟨"LD_DT_VX", 0xF015, 0xF0FF⟩, by decide, rfl, by rw [and_mask_op_nn]; simp [encode]; decide⟩
theorem ldStVx (x : Nibble) : Statement (.ldStVx x) :=
  ⟨⟨"LD_ST_VX", 0xF018, 0xF0FF⟩, by decide, rfl, by rw [and_mask_op_nn]; simp [encode]; decide⟩
theorem ldFVx (x : Nibble) : Statement (.ldFVx x) :=
  ⟨⟨"LD_F_VX", 0xF029, 0xF0FF⟩, by decide, rfl, by rw [and_mask_op_nn]; simp [encode]; decide⟩
theorem ldBVx (x : Nibble) : Statement (.ldBVx x) :=
  ⟨⟨"LD_B_VX", 0xF033, 0xF0FF⟩, by decide, rfl, by rw [and_mask_op_nn]; simp [encode]; decide⟩
theorem ldMemVx (x : Nibble) : Statement (.ldMemVx x) :=
  ⟨⟨"LD_MEM_VX", 0xF055, 0xF0FF⟩, by decide, rfl, by rw [and_mask_op_nn]; simp [encode]; decide⟩
theorem ldVxMem (x : Nibble) : Statement (.ldVxMem x) :=
  ⟨⟨"LD_VX_MEM", 0xF065, 0xF0FF⟩, by decide, rfl, by rw [and_mask_op_nn]; simp [encode]; decide⟩
theorem addIVx (x : Nibble) : Statement (.addIVx x) :=
  ⟨⟨"ADD_I_VX", 0xF01E, 0xF0FF⟩, by decide, rfl, by rw [and_mask_op_nn]; simp [encode]; decide⟩

end Sys2Proof.Laws.TableRow
end

