-- ==== Sys2Proof/Tests/Slice0.lean ====
section
/-! SUPPORT. The model's own tests: the checks of WellFormed refuse ill-formed data, every constructor's word decodes, one or
two steps per instruction with the results that 95_test_vectors.md gives (the vector's id stands in the test's name), and for
every obligation with hypotheses a state and operands that meet them. -/

namespace Sys2Proof.Tests

open Sys2Proof.Machine

/-! ### Helpers -/

/-- The next state, when there is one. -/
def nextOf (r : Result) : Option State :=
  match r with
  | .next t => some t
  | _ => none

/-- Reset state with registers and memory as listed. -/
def start (regs : List (Nibble × Byte)) (mem : List (Nat × Byte) := []) : State :=
  (regs.foldl (fun s r => s.setReg r.1 r.2) State.reset).storeBytes mem

/-- The state after the step that runs the word placed at `pc`. -/
def run (w : Word) (s : State) : Option State := nextOf (step (s.withFetchWord 16 w.toNat))

/-- That state's reading. -/
def after {α : Type} (w : Word) (s : State) (f : State → α) : Option α := (run w s).map f

/-! ### Well-formedness -/

theorem test_wf_legal_words : [0x00E0, 0x5120, 0x812E, 0x9120, 0xE09E, 0xFF65].all legalWord = true := by decide

theorem test_wf_refuses_each :
    [0x0000, 0x01E0, 0x00E1, 0x5121, 0x8128, 0x812F, 0x9128, 0xE09F, 0xF000, 0xF0FF].all
      (fun w => !legalWord w && (decodeWord w).isNone) = true := by decide
theorem test_wf_default_config : Config.default.wellFormed = true := by decide
theorem test_wf_refuses_glyph_A :
    { Config.default with font := Config.defaultFont.set 0xA #v[0xF0, 0x90, 0xF0, 0x90, 0x91] }.wellFormed = false := by
  decide
theorem test_wf_rom_of_3584_bytes : romFits (List.replicate 3584 0) = true := by
  rw [romFits, List.length_replicate]; decide
theorem test_wf_refuses_rom_of_3585_bytes : romFits (List.replicate 3585 0) = false := by
  rw [romFits, List.length_replicate]; decide


/-! ### Decoding: every constructor from a word written out digit by digit (R50) -/

theorem test_decode_display : decodeWord 0x00E0 = some .cls ∧ decodeWord 0xD12F = some (.drw 1 2 15) := by decide
theorem test_decode_jumps :
    decodeWord 0x00EE = some .ret ∧ decodeWord 0x1ABC = some (.jp 0xABC) ∧ decodeWord 0x2DEF = some (.call 0xDEF) ∧
      decodeWord 0xB123 = some (.jpV0 0x123) := by decide
theorem test_decode_skips :
    decodeWord 0x3142 = some (.seByte 1 0x42) ∧ decodeWord 0x4E85 = some (.sneByte 0xE 0x85) ∧
      decodeWord 0x51A0 = some (.seReg 1 0xA) ∧ decodeWord 0x9B20 = some (.sneReg 0xB 2) := by decide
theorem test_decode_bytes :
    decodeWord 0x6A42 = some (.ldByte 0xA 0x42) ∧ decodeWord 0x7BFF = some (.addByte 0xB 0xFF) ∧
      decodeWord 0xC10F = some (.rnd 1 0x0F) := by decide
theorem test_decode_registers :
    decodeWord 0x8120 = some (.ldReg 1 2) ∧ decodeWord 0x8341 = some (.orReg 3 4) ∧
      decodeWord 0x8562 = some (.andReg 5 6) ∧ decodeWord 0x8783 = some (.xorReg 7 8) := by decide
theorem test_decode_flagged :
    decodeWord 0x89A4 = some (.addReg 9 0xA) ∧ decodeWord 0x8BC5 = some (.sub 0xB 0xC) ∧
      decodeWord 0x8DE6 = some (.shr 0xD 0xE) ∧ decodeWord 0x8F07 = some (.subn 0xF 0) ∧
      decodeWord 0x812E = some (.shl 1 2) := by decide
theorem test_decode_index :
    decodeWord 0xA123 = some (.ldI 0x123) ∧ decodeWord 0xF11E = some (.addIVx 1) ∧ decodeWord 0xF229 = some (.ldFVx 2) ∧
      decodeWord 0xF333 = some (.ldBVx 3) ∧ decodeWord 0xF455 = some (.ldMemVx 4) ∧
      decodeWord 0xF565 = some (.ldVxMem 5) := by decide
theorem test_decode_input :
    decodeWord 0xE19E = some (.skp 1) ∧ decodeWord 0xE2A1 = some (.sknp 2) ∧ decodeWord 0xF30A = some (.ldVxK 3) := by
  decide
theorem test_decode_timers :
    decodeWord 0xF407 = some (.ldVxDt 4) ∧ decodeWord 0xF515 = some (.ldDtVx 5) ∧ decodeWord 0xF618 = some (.ldStVx 6) := by
  decide
theorem test_decode_table_word : decodeTableWord 16 0x1ABC = some (.jp 0xABC) ∧ decodeTableWord 16 0x5121 = none := by decide

/-! ### Fetch (2.1 of 95_test_vectors.md) -/

/-- The state at `pc` with memory as listed, under a configuration. -/
def startAt (p : Word) (mem : List (Nat × Byte)) (c : Config := Config.default) : State :=
  ((State.powerOn c).setPc p).storeBytes mem

/-- The default parameters with `wrap12`. -/
def wrapping : Config := { Config.default with addrPolicy := .wrap12 }

/-- The default parameters with `LOW_FETCH_POLICY = allow`. -/
def lowFetches : Config := { Config.default with lowFetchPolicy := .allow }

/-- The default parameters with `low_nibble`. -/
def lowNibbleKeys : Config := { Config.default with keyPolicy := .lowNibble }

/-- A status reading after a transition. -/
def statusAfter (s : State) : Option Status := (nextOf (step s)).map fun t => t.status

theorem test_E1 : (nextOf (step (startAt 0x200 [(0x200, 0x12), (0x201, 0x34)]))).map (fun t => t.pc) = some 0x234 := by
  decide
theorem test_E13 :
    (nextOf (step (startAt 0x201 [(0x201, 0x60), (0x202, 0x07)]))).map (fun t => (t.reg 0, t.pc)) = some (0x07, 0x203) := by
  decide
theorem test_E12 :
    (nextOf (step (startAt 0xFFF [(0xFFF, 0x12)] wrapping))).map (fun t => t.pc) = some 0x2F0 := by decide
theorem test_E2 :
    statusAfter State.reset = some (.halted ⟨.unrecognizedOpcode, 0x200, some 0x0000, none, none⟩) := by decide
theorem test_E5 :
    after 0x5121 State.reset (fun t => t.status) =
      some (.halted ⟨.unrecognizedOpcode, 0x200, some 0x5121, none, none⟩) := by decide
theorem test_E9 :
    statusAfter (startAt 0xFFF []) = some (.halted ⟨.addressOutOfRange, 0xFFF, none, some 0x1000, none⟩) := by decide
theorem test_E10 :
    statusAfter (startAt 0x100 []) = some (.halted ⟨.fetchOutsideProgram, 0x100, none, some 0x100, none⟩) := by decide
theorem test_E11 :
    statusAfter (startAt 0x1FF [(0x1FF, 0x12)]) =
      some (.halted ⟨.fetchOutsideProgram, 0x1FF, none, some 0x1FF, none⟩) := by decide

/-! ### Display (2.2) -/

theorem test_D1 :
    after 0x00E0 (State.reset.setDisp (Surface.blank.setPixel 0 0 true)) (fun t => (t.pixel 0 0, t.frames, t.pc)) =
      some (false, 1, 0x202) := by decide
theorem test_D5 :
    after 0xD011 (((start [] [(0x300, 0xC0)]).setIndex 0x300).setDisp (Surface.blank.setPixel 0 0 true))
      (fun t => (t.pixel 0 0, t.pixel 1 0, t.reg 0xF)) = some (false, true, 1) := by decide
theorem test_D7 :
    after 0xD015 ((start [(0, 0x3E), (1, 0x1F)]).setIndex 0x032)
      (fun t => (t.reg 0xF, [(62, 31), (1, 31), (2, 31), (62, 0), (63, 0), (1, 0), (0, 3), (1, 3)].map
        fun p => t.pixel p.1 p.2)) =
      some (0, [true, true, false, true, false, true, false, true]) := by decide

/-! ### Control flow (2.3) -/

theorem test_F1 :
    after 0x00EE (State.reset.setStack [0x206]) (fun t => (t.pc, t.stack)) = some (0x206, []) := by decide
theorem test_F2 :
    after 0x00EE State.reset (fun t => (t.status, t.pc)) =
      some (.halted ⟨.stackUnderflow, 0x200, some 0x00EE, none, none⟩, 0x200) := by decide
theorem test_F4 : after 0x1201 State.reset (fun t => t.pc) = some 0x201 := by decide
theorem test_F5 : after 0x2400 State.reset (fun t => (t.pc, t.stack)) = some (0x400, [0x202]) := by decide
theorem test_F6 :
    after 0x2400 (State.reset.setStack (List.replicate 16 0x202)) (fun t => (t.status, t.stack.length)) =
      some (.halted ⟨.stackOverflow, 0x200, some 0x2400, none, none⟩, 16) := by decide
theorem test_F7 :
    after 0x3342 (start [(3, 0x42)]) (fun t => t.pc) = some 0x204 ∧
      after 0x3343 (start [(3, 0x42)]) (fun t => t.pc) = some 0x202 := by decide
theorem test_F8 :
    after 0x4342 (start [(3, 0x42)]) (fun t => t.pc) = some 0x202 ∧
      after 0x4343 (start [(3, 0x42)]) (fun t => t.pc) = some 0x204 := by decide
theorem test_F9 : after 0x5120 (start [(1, 7), (2, 7)]) (fun t => t.pc) = some 0x204 := by decide
theorem test_F10 : after 0x9120 (start [(1, 7), (2, 8)]) (fun t => t.pc) = some 0x204 := by decide
theorem test_F11 : after 0xB300 (start [(0, 0x04)]) (fun t => t.pc) = some 0x304 := by decide
theorem test_F12 : after 0xBFF0 (start [(0, 0x10)]) (fun t => t.pc) = some 0x1000 := by decide

/-! ### ALU (2.4) -/

theorem test_A1 : after 0x6A42 State.reset (fun t => t.reg 0xA) = some 0x42 := by decide
theorem test_A2 :
    after 0x7AFF (start [(0xA, 0x02), (0xF, 0x77)]) (fun t => (t.reg 0xA, t.reg 0xF)) = some (0x01, 0x77) := by decide
theorem test_A3 : after 0x8120 (start [(2, 0x55)]) (fun t => t.reg 1) = some 0x55 := by decide
theorem test_A4 :
    after 0x8121 (start [(1, 0xF0), (2, 0x0F), (0xF, 0x77)]) (fun t => (t.reg 1, t.reg 0xF)) = some (0xFF, 0x77) := by
  decide
theorem test_A5 : after 0x8122 (start [(1, 0xF0), (2, 0x0F)]) (fun t => t.reg 1) = some 0x00 := by decide
theorem test_A6 : after 0x8123 (start [(1, 0xFF), (2, 0x0F)]) (fun t => t.reg 1) = some 0xF0 := by decide
theorem test_A8 :
    after 0x8124 (start [(1, 0xFF), (2, 0x01)]) (fun t => (t.reg 1, t.reg 0xF)) = some (0x00, 1) := by decide
theorem test_A12 : after 0x8F14 (start [(0xF, 0x10), (1, 0x20)]) (fun t => t.reg 0xF) = some 0x30 := by decide
theorem test_A14 : after 0x8125 (start [(1, 3), (2, 5)]) (fun t => (t.reg 1, t.reg 0xF)) = some (0xFE, 0) := by decide
theorem test_A18 : after 0x8F15 (start [(0xF, 5), (1, 3)]) (fun t => t.reg 0xF) = some 1 := by decide
theorem test_A20 : after 0x8127 (start [(1, 3), (2, 5)]) (fun t => (t.reg 1, t.reg 0xF)) = some (0x02, 1) := by decide
theorem test_A22 : after 0x8127 (start [(1, 7), (2, 7)]) (fun t => (t.reg 1, t.reg 0xF)) = some (0x00, 1) := by decide
theorem test_A23 :
    after 0x8126 (start [(1, 0xAA), (2, 0x05)]) (fun t => (t.reg 1, t.reg 0xF)) = some (0x02, 1) := by decide
theorem test_A25 : after 0x8F26 (start [(2, 0x05)]) (fun t => t.reg 0xF) = some 0x02 := by decide
theorem test_A27 :
    after 0x812E (start [(1, 0x81), (2, 0x33)]) (fun t => (t.reg 1, t.reg 0xF)) = some (0x02, 1) := by decide
theorem test_A29 : after 0x8F1E (start [(0xF, 0x81)]) (fun t => t.reg 0xF) = some 0x02 := by decide
/-- With the vector's random byte in place of the free value. -/
theorem test_A30 : (State.reset.loadRandom 0xAB 1 0x0F).reg 1 = 0x0B := by decide

/-! ### Index register and block memory (2.5) -/

theorem test_M1 : after 0xA123 State.reset (fun t => t.index) = some 0x123 := by decide
theorem test_M2 :
    after 0xF11E ((start [(1, 0x02), (0xF, 0x77)]).setIndex 0xFFFF) (fun t => (t.index, t.reg 0xF)) =
      some (0x0001, 0x77) := by decide
theorem test_M3 : after 0xF11E ((start [(1, 0x01)]).setIndex 0x0FFF) (fun t => t.index) = some 0x1000 := by decide
theorem test_M4 :
    after 0xF129 (start [(1, 0x0A)]) (fun t => t.index) = some 0x032 ∧
      after 0xF129 (start [(1, 0xFF)]) (fun t => t.index) = some 0x4FB := by decide
theorem test_M5 :
    after 0xF133 ((start [(1, 254)]).setIndex 0x300)
      (fun t => (t.byteAt 0x300, t.byteAt 0x301, t.byteAt 0x302, t.index)) = some (2, 5, 4, 0x300) := by decide
theorem test_M8 :
    after 0xF133 ((start [(1, 254)]).setIndex 0xFFE) (fun t => (t.status, t.byteAt 0xFFE, t.byteAt 0xFFF)) =
      some (.halted ⟨.addressOutOfRange, 0x200, some 0xF133, some 0x1000, none⟩, 0, 0) := by decide
theorem test_M9 :
    after 0xF255 ((start [(0, 1), (1, 2), (2, 3), (3, 4)]).setIndex 0x300)
      (fun t => (t.byteAt 0x300, t.byteAt 0x302, t.byteAt 0x303, t.index)) = some (1, 3, 0, 0x303) := by decide
theorem test_M17 :
    after 0xF155 (((startAt 0x200 [] wrapping).setReg 0 1).setIndex 0xFFF) (fun t => (t.status, t.byteAt 0xFFF)) =
      some (.halted ⟨.fontWrite, 0x200, some 0xF155, some 0x000, none⟩, 0) := by decide
theorem test_M15 :
    after 0xFF65 ((start [] ((List.range 16).map fun k => (0x300 + k, BitVec.ofNat 8 (0x10 + k)))).setIndex 0x300)
      (fun t => (t.reg 0, t.reg 0xF, t.index)) = some (0x10, 0x1F, 0x310) := by decide
theorem test_L1_9 :
    after 0xF465 (State.reset.setIndex 0x032) (fun t => ([0, 1, 2, 3, 4].map t.reg, t.index)) =
      some ([0xF0, 0x90, 0xF0, 0x90, 0x90], 0x037) := by decide

/-! ### Input (2.6) -/

theorem test_K1 :
    after 0xE19E ((start [(1, 5)]).setKey 5 true) (fun t => t.pc) = some 0x204 ∧
      after 0xE19E (start [(1, 5)]) (fun t => t.pc) = some 0x202 := by decide
theorem test_K4 :
    after 0xE19E (((startAt 0x200 [] lowNibbleKeys).setReg 1 0x15).setKey 5 true) (fun t => t.pc) = some 0x204 := by decide
theorem test_K2 :
    after 0xE1A1 ((start [(1, 5)]).setKey 5 true) (fun t => t.pc) = some 0x202 ∧
      after 0xE1A1 (start [(1, 5)]) (fun t => t.pc) = some 0x204 := by decide
theorem test_K5_K6 :
    after 0xF30A State.reset (fun t => (t.reg 3, t.pc)) = some (0, 0x200) ∧
      after 0xF30A (State.reset.setKey 7 true) (fun t => (t.reg 3, t.pc)) = some (7, 0x202) := by decide
/-- With the free value's choice in place of it: both keys can be taken. -/
theorem test_K7 :
    (((State.reset.setKey 2 true).setKey 9 true).takeKey 0 3).reg 3 = 2 ∧
      (((State.reset.setKey 2 true).setKey 9 true).takeKey 1 3).reg 3 = 9 := by decide

/-! ### Timers and the host (2.7, 60_exceptions.md) -/

theorem test_T1 : after 0xF507 (State.reset.setDT 0x3C) (fun t => t.reg 5) = some 0x3C := by decide
theorem test_T2 : after 0xF515 (start [(5, 0x10)]) (fun t => (t.dt, t.st)) = some (0x10, 0) := by decide
theorem test_T3 : after 0xF518 (start [(5, 0x10)]) (fun t => (t.dt, t.st)) = some (0, 0x10) := by decide
theorem test_T4 :
    (nextOf (step ((State.reset.setDT 1).setAgenda [.tick]))).map (fun t => (t.dt, t.st)) = some (0, 0) := by decide
/-- The block is Halted (R103): the tick still acts. -/
theorem test_T6 :
    (nextOf (step (((State.reset.raise (some 0) .unrecognizedOpcode).setDT 3).setAgenda [.tick]))).map (fun t => t.dt) =
      some 2 := by decide
theorem test_T5 :
    (nextOf (step (((State.reset.setDT 0xFF).setST 2).setAgenda [.tick]))).map (fun t => (t.dt, t.st)) =
      some (0xFE, 1) := by decide
/-- R115, R117: the image of program P1. -/
theorem test_reset_with_rom :
    (nextOf (step ((startAt 0x300 [(0x300, 1)]).setAgenda [.reset [0x60, 0x05, 0x70, 0x03, 0x12, 0x00]]))).map
      (fun t => (t.pc, t.byteAt 0x200, t.byteAt 0x204, t.byteAt 0x300, t.byteAt 0x032)) =
      some (0x200, 0x60, 0x12, 0, 0xF0) := by decide

/-! ### Witnesses: states and operands that meet every obligation's hypotheses -/

/-- The block halted by the return of F-2. -/
def halted : State := State.reset.raise (some 0x00EE) .stackUnderflow

theorem witness_EncodeAfterDecodeIsIdentity : decodeWord 0xFF65 = some (.ldVxMem 0xF) := by decide

theorem witness_StepRunsTheDecodedInstruction :
    (startAt 0xFFE [(0xFFE, 0x12), (0xFFF, 0x34)]).cpuTurn = some (startAt 0xFFE [(0xFFE, 0x12), (0xFFF, 0x34)]) ∧
      (startAt 0xFFE [(0xFFE, 0x12), (0xFFF, 0x34)]).status = .running ∧
      checkFetch Config.default 0xFFE = .ok (0xFFE, 0xFFF) ∧ decode [0x12, 0x34] = .ok (.jp 0x234, []) :=
  ⟨rfl, rfl, rfl, rfl⟩
theorem witness_StepRunsTheDecodedInstruction_agenda :
    (State.reset.setAgenda [.step, .tick]).cpuTurn = some (State.reset.setAgenda [.tick]) := rfl

theorem witness_FetchIsBigEndianAtEveryAlignment :
    (startAt 0x200 []).pc.toNat + 1 ≤ 0xFFF ∧ 0x200 ≤ (startAt 0x200 []).pc.toNat % 4096 ∧
      (startAt 0xFFE []).pc.toNat + 1 ≤ 0xFFF ∧ 0x200 ≤ (startAt 0xFFE []).pc.toNat % 4096 := by decide
theorem witness_FetchIsBigEndianAtEveryAlignment_wrapped :
    wrapping.addrPolicy = .wrap12 ∧ 0x200 ≤ (startAt 0xFFF [] wrapping).pc.toNat % 4096 ∧
      0x200 ≤ (startAt 0xFFFF [] wrapping).pc.toNat % 4096 := by decide
theorem witness_FetchIsBigEndianAtEveryAlignment_low :
    lowFetches.lowFetchPolicy = .allow ∧ (startAt 0 [] lowFetches).pc.toNat + 1 ≤ 0xFFF ∧
      (startAt 0x1FF [] lowFetches).pc.toNat + 1 ≤ 0xFFF := by decide

theorem witness_FetchFailuresHaltTheBlock_above :
    (startAt 0x1000 []).cpuTurn = some (startAt 0x1000 []) ∧ (startAt 0x1000 []).status = .running ∧
      (startAt 0x1000 []).cfg.addrPolicy = .fault ∧ 0xFFF < (startAt 0x1000 []).pc.toNat := ⟨rfl, rfl, rfl, by decide⟩
theorem witness_FetchFailuresHaltTheBlock_last :
    (startAt 0xFFF []).cfg.addrPolicy = .fault ∧ (startAt 0xFFF []).pc.toNat = 0xFFF := by decide
theorem witness_FetchFailuresHaltTheBlock_low :
    (startAt 0x1FF []).cfg.lowFetchPolicy = .fault ∧ (startAt 0x1FF []).pc.toNat + 1 ≤ 0xFFF ∧
      (startAt 0x1FF []).pc.toNat % 4096 < 0x200 := by decide
theorem witness_FetchFailuresHaltTheBlock_wrapped :
    (startAt 0x1000 [] wrapping).cfg.lowFetchPolicy = .fault ∧ (startAt 0x1000 [] wrapping).cfg.addrPolicy = .wrap12 ∧
      (startAt 0x1000 [] wrapping).pc.toNat % 4096 < 0x200 := by decide

theorem witness_IllegalWordHaltsWithItsWord :
    State.reset.cpuTurn = some State.reset ∧ State.reset.status = .running ∧ State.reset.fetch = .ok 0x0000 ∧
      legalWord 0x0000 = false := ⟨rfl, rfl, rfl, by decide⟩

theorem witness_ErrorsArePrecise :
    ∃ u e, State.reset.cpuTurn = some State.reset ∧ State.reset.status = .running ∧ step State.reset = .next u ∧
      u.status = .halted e ∧ State.reset.fetch = .ok 0x0000 := ⟨_, _, rfl, rfl, rfl, rfl, rfl⟩
theorem witness_ErrorsArePrecise_fetch :
    ∃ u e c, (startAt 0xFFF []).cpuTurn = some (startAt 0xFFF []) ∧ (startAt 0xFFF []).status = .running ∧
      step (startAt 0xFFF []) = .next u ∧ u.status = .halted e ∧ (startAt 0xFFF []).fetch = .error c :=
  ⟨_, _, _, rfl, rfl, rfl, rfl, rfl⟩

theorem witness_EachInstructionRaisesOnlyItsOwnErrors :
    ∃ t e, State.reset.status = .running ∧ exec .ret State.reset = .next t ∧ t.status = .halted e :=
  ⟨_, _, rfl, rfl, rfl⟩

theorem witness_HaltedIsLeftOnlyByReset :
    halted.status = .halted ⟨.stackUnderflow, 0x200, some 0x00EE, none, none⟩ ∧ halted.cpuTurn = some halted ∧
      (halted.setAgenda [.tick]).status = halted.status ∧ (halted.setAgenda [.tick]).agenda = .tick :: [] ∧
      (halted.setAgenda [.key 0xF true]).agenda = .key 0xF true :: [] := ⟨rfl, rfl, rfl, rfl, rfl⟩
theorem witness_HaltedIsLeftOnlyByReset_reset :
    ∃ t, (halted.setAgenda [.reset []]).agenda = .reset [] :: [] ∧ ([] : List Byte).length ≤ 3584 ∧
      step (halted.setAgenda [.reset []]) = .next t ∧ t.status = .running := ⟨_, rfl, by decide, rfl, rfl⟩

theorem witness_OnlyAnOversizeImageIsRefused :
    (State.reset.setAgenda [.reset (List.replicate 3585 0)]).agenda = .reset (List.replicate 3585 0) :: [] ∧
      3584 < (List.replicate 3585 (0 : Byte)).length ∧
      (∀ rom rest, (State.reset.setAgenda [.reset [0]]).agenda = .reset rom :: rest → rom.length ≤ 3584) := by
  refine ⟨rfl, by rw [List.length_replicate]; decide, fun rom rest h => ?_⟩
  cases h
  decide

theorem witness_PcAfterEveryStep :
    (∃ t, State.reset.status = .running ∧ exec .cls State.reset = .next t ∧ t.status = .running) ∧
      (∃ t, cpuStep State.reset = .next t ∧ t.status ≠ .running) ∧
      ∃ t, halted.status ≠ .running ∧ cpuStep halted = .next t :=
  ⟨⟨_, rfl, rfl, rfl⟩, ⟨_, rfl, by decide⟩, ⟨_, by decide, rfl⟩⟩

theorem witness_EveryInstructionWritesOnly :
    ∃ t, exec (.addReg 1 2) State.reset = .next t ∧ writesReg 3 (.addReg 1 2) = false := ⟨_, rfl, by decide⟩

theorem witness_invariant_at_reset : State.reset.Inv :=
  { memCanonical := by decide
    stackFits := by decide
    fontKept := fun _ _ _ => rfl
    pcBounded := fun _ => by decide
    returnsBounded := fun _ r hr => by simp [State.reset, State.powerOn] at hr
    errorAtPc := fun e he => by simp [State.reset, State.powerOn] at he }
theorem witness_EveryTransitionKeepsTheInvariant : ∃ t, step State.reset = .next t := ⟨_, rfl⟩

theorem witness_EqualReadsMeanEqualMemory :
    Memory.wf Config.default [(0xFFF, 7)] = true ∧ ∀ a, Memory.read Config.default [(0xFFF, 7)] a =
      Memory.read Config.default [(0xFFF, 7)] a := ⟨by decide, fun _ => rfl⟩

/-- A sprite of 15 rows ending at the last byte of memory, one of none, and one that wraps. -/
theorem witness_DrawInvertsTheSpritesPixels :
    (State.reset.setIndex 0xFF1).CanRead 15 ∧ (State.reset.setIndex 0xFFFF).CanRead 0 ∧
      ((State.powerOn wrapping).setIndex 0xFFFF).CanRead 15 := by
  unfold State.CanRead State.InRange
  decide

theorem witness_DrawOutOfRangeHalts :
    ∀ q ∈ [(0x1000#16, 0), (0xFFF#16, 1), (0xFF2#16, 14)],
      (State.reset.setIndex q.1).cfg.addrPolicy = .fault ∧ q.2 < (15#4).toNat ∧ 0xFFF < q.1.toNat + q.2 ∧
        ∀ j, j < q.2 → q.1.toNat + j ≤ 0xFFF := by decide

theorem witness_DrawingTwiceRestoresTheDisplay :
    (State.reset.setIndex 0x32).CanRead 5 ∧ (0 : Nibble) ≠ 0xF ∧
      ∃ t u, exec (.drw 0 0 5) (State.reset.setIndex 0x32) = .next t ∧ exec (.drw 0 0 5) t = .next u := by
  refine ⟨?_, by decide, _, _, rfl, rfl⟩
  unfold State.CanRead State.InRange
  decide

theorem witness_ReturnPopsOrUnderflows :
    (State.reset.setStack [0x206, 0x300]).stack = [0x206] ++ [0x300] ∧ State.reset.stack = [] := ⟨rfl, rfl⟩

theorem witness_CallPushesOrOverflows :
    (State.reset.setStack (List.replicate 15 0x202)).stack.length < Config.default.stackDepth ∧
      Config.default.stackDepth ≤ (State.reset.setStack (List.replicate 16 0x202)).stack.length := by decide

theorem witness_ReturnAfterCallContinuesBehindIt :
    ∃ t, State.reset.stack.length < State.reset.cfg.stackDepth ∧ exec (.call 0x400) State.reset = .next t :=
  ⟨_, by decide, rfl⟩

theorem witness_AluDestinationIsNotVf : (1 : Nibble) ≠ 0xF := by decide

theorem witness_FontAddressFindsTheGlyph :
    State.reset.Inv ∧ State.reset.cfg.fontWritePolicy = .fault ∧ (State.reset.reg 0).toNat = (0 : Fin 16).val ∧
      ((start [(0, 0xF)]).reg 0).toNat = (15 : Fin 16).val :=
  ⟨witness_invariant_at_reset, by decide, by decide, by decide⟩

/-- The lowest and the highest block of three bytes, and one that wraps. -/
theorem witness_BcdStoresThreeDigits :
    Memory.wf State.reset.cfg State.reset.mem = true ∧ (State.reset.setIndex 0x050).CanWrite 3 ∧
      (State.reset.setIndex 0xFFD).CanWrite 3 ∧
      ((State.powerOn { wrapping with fontWritePolicy := .allow }).setIndex 0xFFE).CanWrite 3 := by
  unfold State.CanWrite State.InRange State.OffFont
  decide

theorem witness_StoreWritesTheRegisterBlock :
    (State.reset.setIndex 0x050).CanWrite 16 ∧ (State.reset.setIndex 0xFF0).CanWrite 16 ∧
      (State.reset.setIndex 0xFFF).CanWrite 1 := by
  unfold State.CanWrite State.InRange State.OffFont
  decide

theorem witness_LoadReadsTheRegisterBlock :
    (State.reset.setIndex 0).CanRead 16 ∧ (State.reset.setIndex 0xFF0).CanRead 16 ∧
      ((State.powerOn wrapping).setIndex 0xFFFF).CanRead 16 := by
  unfold State.CanRead State.InRange
  decide

/-- Beside the store's own hypotheses (above): the state in which `I` is set back. -/
theorem witness_LoadAfterStoreRestoresRegisters :
    ∃ t u, exec (.ldMemVx 0xF) (State.reset.setIndex 0x300) = .next t ∧
      u.index = (State.reset.setIndex 0x300).index ∧ OnlyChanges [.v, .index, .pc] t u := by
  obtain ⟨t, ht⟩ : ∃ t, exec (.ldMemVx 0xF) (State.reset.setIndex 0x300) = .next t := ⟨_, rfl⟩
  refine ⟨t, t.setIndex 0x300, ht, rfl, fun p hp => ?_⟩
  cases p
  case index => simp at hp
  all_goals first | rfl | (intro _; rfl) | (intro _ _; rfl)

theorem witness_FailingStoresWriteNothing_range :
    (∀ j, j < 2 → (State.reset.setIndex 0xFFE).InRange j ∧ (State.reset.setIndex 0xFFE).OffFont j) ∧
      ¬ (State.reset.setIndex 0xFFE).InRange 2 ∧ ¬ (State.reset.setIndex 0x1000).InRange 0 := by
  unfold State.InRange State.OffFont
  decide

theorem witness_FailingStoresWriteNothing_font :
    (State.reset.setIndex 0x04F).InRange 0 ∧ ¬ (State.reset.setIndex 0x04F).OffFont 0 ∧
      (∀ j, j < 1 → ((State.powerOn wrapping).setIndex 0xFFF).InRange j ∧
        ((State.powerOn wrapping).setIndex 0xFFF).OffFont j) ∧
      ((State.powerOn wrapping).setIndex 0xFFF).InRange 1 ∧ ¬ ((State.powerOn wrapping).setIndex 0xFFF).OffFont 1 := by
  unfold State.InRange State.OffFont
  decide

theorem witness_LoadOutOfRangeHalts :
    ∀ q ∈ [(0x1000#16, 0), (0xFF1#16, 15)],
      (State.reset.setIndex q.1).cfg.addrPolicy = .fault ∧ q.2 ≤ (15#4).toNat ∧ 0xFFF < q.1.toNat + q.2 ∧
        ∀ j, j < q.2 → q.1.toNat + j ≤ 0xFFF := by decide

/-- V0 and V1 hold `1ABC`, stored behind the store at 0xFFC, the highest place it can stand. -/
theorem witness_StoredInstructionRunsNext :
    ∃ t, let s := ((start [(0, 0x1A), (1, 0xBC)]).setPc 0xFFC).setIndex 0xFFE
      Memory.wf s.cfg s.mem = true ∧ s.status = .running ∧ s.agenda = [] ∧ 0x200 ≤ s.pc.toNat ∧
        s.pc.toNat + 3 ≤ 0xFFF ∧ s.index = s.pc + 2 ∧ exec (.ldMemVx 1) s = .next t ∧
        decode [s.reg 0, s.reg 1] = .ok (.jp 0xABC, []) :=
  ⟨_, by decide, rfl, rfl, by decide, by decide, by decide, rfl, rfl⟩

theorem witness_KeySkipsTestTheLevel :
    ((start [(1, 0xF)]).reg 1).toNat ≤ 0xF ∧ (State.powerOn lowNibbleKeys).cfg.keyPolicy = .lowNibble := by decide

theorem witness_KeyNumberAboveFifteenHalts :
    (start [(1, 0x10)]).cfg.keyPolicy = .fault ∧ 0xF < ((start [(1, 0x10)]).reg 1).toNat := by decide

theorem witness_KeyWaitTakesAPressedKey :
    (∀ k, State.reset.keyPressed k = false) ∧ ∃ k, (State.reset.setKey 0xF true).keyPressed k = true :=
  ⟨by decide, 0xF, by decide⟩

theorem witness_TickCountsBothTimersDown : (State.reset.setAgenda [.tick]).agenda = .tick :: [] := rfl

theorem witness_KeyChangeSetsOneLevel : (State.reset.setAgenda [.key 0xF true]).agenda = .key 0xF true :: [] := rfl

theorem witness_ResetPlacesFontAndImage :
    (State.reset.setAgenda [.reset (List.replicate 3584 0xFF)]).agenda = .reset (List.replicate 3584 0xFF) :: [] ∧
      (List.replicate 3584 (0xFF : Byte)).length ≤ 3584 ∧
      (halted.setAgenda [.reset []]).agenda = .reset [] :: [] ∧ ([] : List Byte).length ≤ 3584 :=
  ⟨rfl, by rw [List.length_replicate], rfl, by decide⟩

theorem witness_ParkedStateIsFinal :
    (start [] [(0x200, 0x12)]).parked = true ∧ (start [] [(0x200, 0x12)]).agenda = [] := by decide

theorem witness_PlacedWordRunsNext : Memory.wf State.reset.cfg State.reset.mem = true := by decide

end Sys2Proof.Tests
end

