-- ==== Sys2Proof/Proofs/Parameters.lean ====
section
/-! The parameters of R4 are written by no operation: one lemma for each operation that is more than a field update, then
instructions, the CPU's step and the transition. -/

namespace Sys2Proof.Machine

/-! ### Operations -/

@[simp] theorem State.storeBytes_cfg (s : State) (ws : List (Nat × Byte)) : (s.storeBytes ws).cfg = s.cfg := by
  obtain ⟨m, hm⟩ := s.storeBytes_rest ws
  rw [hm]

@[simp] theorem State.loadRegs_cfg (s : State) (k : Nat) (as : List Nat) : (s.loadRegs k as).cfg = s.cfg := by
  obtain ⟨v, hv⟩ := s.loadRegs_rest as k
  rw [hv]

@[simp] theorem State.takeKey_cfg (s : State) (draw : Nat) (x : Nibble) : (s.takeKey draw x).cfg = s.cfg := by
  unfold State.takeKey
  split
  next => rfl
  next k _ => rfl

@[simp] theorem State.tick_cfg (s : State) : s.tick.cfg = s.cfg := rfl

@[simp] theorem State.resetWith_cfg (s : State) (rom : List Byte) : (s.resetWith rom).cfg = s.cfg := by
  obtain ⟨m, hm⟩ := s.resetWith_rest rom
  rw [hm]
  rfl

/-- Error entry keeps the parameters, so a checked instruction keeps them when its continuation does. -/
theorem State.checked_keeps_cfg {α : Type} {s t : State} {i : Instr} {r : Except Cause α} {k : α → State}
    (h : s.checked i r k = .next t) (hk : ∀ a, (k a).cfg = s.cfg) : t.cfg = s.cfg := by
  rcases State.checked_next_iff.1 h with ⟨a, -, rfl⟩ | ⟨e, -, rfl⟩
  · exact hk a
  · exact s.raise_cfg _ e

/-- An image that is too long gives no next state (R117); one that fits is loaded into the state of power on. -/
theorem State.hostReset_keeps_cfg {s t : State} {rom : List Byte} (h : s.hostReset rom = .next t) : t.cfg = s.cfg := by
  unfold State.hostReset at h
  split at h
  next => cases h; exact s.resetWith_cfg rom
  next => cases h

/-! ### Instructions and steps -/

theorem execLdVxK_keeps_cfg {s t : State} {x : Nibble} (h : execLdVxK x s = .next t) : t.cfg = s.cfg := by
  unfold execLdVxK at h
  split at h
  next => cases h; exact s.takeKey_cfg 0 x
  next => cases h; exact s.takeKey_cfg _ x

/-- No instruction writes the parameters: those with checks by `checked_keeps_cfg`, `Fx0A` by its own lemma, and every other
one is a chain of field updates of the state. -/
theorem exec_keeps_cfg {i : Instr} {s t : State} (h : exec i s = .next t) : t.cfg = s.cfg := by
  cases i with
  | ret => exact State.checked_keeps_cfg h fun _ => rfl
  | call nnn => exact State.checked_keeps_cfg h fun _ => rfl
  | drw x y n => exact State.checked_keeps_cfg h fun _ => rfl
  | skp x => exact State.checked_keeps_cfg h fun _ => rfl
  | sknp x => exact State.checked_keeps_cfg h fun _ => rfl
  | ldBVx x => exact State.checked_keeps_cfg h fun _ => s.storeBytes_cfg _
  | ldMemVx x => exact State.checked_keeps_cfg h fun _ => s.storeBytes_cfg _
  | ldVxMem x => exact State.checked_keeps_cfg h fun _ => s.loadRegs_cfg 0 _
  | ldVxK x => exact execLdVxK_keeps_cfg h
  | _ => cases h; rfl

theorem cpuStep_keeps_cfg {s t : State} (h : cpuStep s = .next t) : t.cfg = s.cfg := by
  rcases cpuStep_cases s with ⟨e, -, hc⟩ | ⟨-, ⟨w, i, -, -, hc⟩ | ⟨w, -, -, hc⟩ | ⟨e, -, hc⟩⟩ <;> rw [hc] at h
  · cases h; rfl
  · exact exec_keeps_cfg h
  · cases h; exact s.raise_cfg _ _
  · cases h; exact s.raise_cfg none e

/-- Settles O19: each of the transitions of `step_cases` keeps the parameters. -/
theorem parametersNeverChange : Obligations.ParametersNeverChange := by
  intro s t h
  rcases step_cases s with ⟨u, hu, hs⟩ | ⟨rest, -, hs⟩ | ⟨k, p, rest, -, hs⟩ | ⟨rom, rest, -, hs⟩ <;> rw [hs] at h
  · rw [cpuStep_keeps_cfg h, State.cpuTurn_rest hu, State.setAgenda_cfg]
  · cases h; rw [State.tick_cfg, State.setAgenda_cfg]
  · cases h; rw [State.setKey_cfg, State.setAgenda_cfg]
  · rw [State.hostReset_keeps_cfg h, State.setAgenda_cfg]

end Sys2Proof.Machine
end

