-- ==== Sys2Proof/Proofs/InstructionFrames.lean ====
section
/-! What every instruction leaves unchanged: the parts not listed for it (10_state.md R10) and the registers it does not
write (R12). -/

namespace Sys2Proof.Machine

variable {s t : State} {i : Instr}

/-! ### Parts -/

/-- Error entry changes the status alone, so a checked instruction that may write the status changes no other part than
its continuation does. -/
theorem State.checked_onlyChanges {α : Type} {ps : List Part} {r : Except Cause α} {k : α → State}
    (h : s.checked i r k = .next t) (hs : .status ∈ ps) (hk : ∀ a, OnlyChanges ps s (k a)) : OnlyChanges ps s t := by
  rcases State.checked_next_iff.1 h with ⟨a, -, rfl⟩ | ⟨e, -, rfl⟩
  · exact hk a
  · exact (s.raise_onlyChanges _ e).mono (by simpa using hs)

/-- Taking a key writes `V[x]` and `pc`, or nothing while no key is pressed (R89). -/
theorem State.takeKey_onlyChanges (s : State) (draw : Nat) (x : Nibble) : OnlyChanges [.v, .pc] s (s.takeKey draw x) := by
  unfold State.takeKey
  split
  next => exact OnlyChanges.refl _ s
  next k _ => exact onlyChanges_of

/-- Using up a free value changes only their numbering. -/
theorem OnlyChanges.nextDraw {ps : List Part} (h : OnlyChanges ps s t) (hd : .draws ∈ ps) :
    OnlyChanges ps s t.nextDraw := by
  intro p hp
  have hne : p ≠ .draws := fun he => hp (he ▸ hd)
  cases p with
  | draws => exact absurd rfl hne
  | _ => exact h _ hp

theorem execLdVxK_onlyChanges {x : Nibble} (h : execLdVxK x s = .next t) : OnlyChanges [.v, .pc, .draws] s t := by
  have htake (draw : Nat) : OnlyChanges [.v, .pc, .draws] s (s.takeKey draw x) :=
    (s.takeKey_onlyChanges draw x).mono (by decide)
  unfold execLdVxK at h
  split at h
  next => cases h; exact htake 0
  next => cases h; exact (htake _).nextDraw (by decide)

/-- Settles O15: a checked instruction changes the status or what its continuation changes, `Fx0A` has its own lemma, and
every other instruction is a chain of field updates, each of a listed part. -/
theorem everyInstructionWritesOnlyItsParts : Obligations.EveryInstructionWritesOnlyItsParts := by
  intro i s t h
  cases i with
  | ret => exact State.checked_onlyChanges (ps := [.stack, .pc, .status]) h (by decide) fun _ => onlyChanges_of
  | call nnn => exact State.checked_onlyChanges (ps := [.stack, .pc, .status]) h (by decide) fun _ => onlyChanges_of
  | drw x y n =>
    exact State.checked_onlyChanges (ps := [.v, .disp, .frames, .pc, .status]) h (by decide) fun _ => onlyChanges_of
  | skp x => exact State.checked_onlyChanges (ps := [.pc, .status]) h (by decide) fun _ => onlyChanges_of
  | sknp x => exact State.checked_onlyChanges (ps := [.pc, .status]) h (by decide) fun _ => onlyChanges_of
  | ldBVx x =>
    exact State.checked_onlyChanges (ps := [.mem, .pc, .status]) h (by decide) fun _ =>
      s.storeBytes_onlyChanges _ State.advance fun _ => onlyChanges_of
  | ldMemVx x =>
    exact State.checked_onlyChanges (ps := [.mem, .index, .pc, .status]) h (by decide) fun _ =>
      s.storeBytes_onlyChanges _ (fun u => (u.bumpIndex x).advance) fun _ => onlyChanges_of
  | ldVxMem x =>
    exact State.checked_onlyChanges (ps := [.v, .index, .pc, .status]) h (by decide) fun _ =>
      s.loadRegs_onlyChanges _ 0 (fun u => (u.bumpIndex x).advance) fun _ => onlyChanges_of
  | ldVxK x => exact execLdVxK_onlyChanges h
  | _ =>
    cases h
    simp only [partsWritten]
    exact onlyChanges_of

/-! ### Registers -/

/-- Taking a key writes no register but `V[x]`. -/
theorem State.reg_takeKey_other (s : State) (draw : Nat) {x r : Nibble} (hr : r ≠ x) :
    (s.takeKey draw x).reg r = s.reg r := by
  unfold State.takeKey
  split
  next => rfl
  next k _ => exact s.reg_setReg_other _ hr

/-- Drawing a sprite writes no register but VF. -/
theorem State.reg_drawSprite_other (s : State) (x y : Nibble) (as : List Nat) {r : Nibble} (hr : r ≠ 0xF) :
    (s.drawSprite x y as).reg r = s.reg r :=
  (s.setDisp _).reg_setReg_other _ hr

/-- A checked instruction keeps a register when its continuation does. -/
theorem State.checked_keeps_reg {α : Type} {e : Except Cause α} {k : α → State} {r : Nibble}
    (h : s.checked i e k = .next t) (hk : ∀ a, e = .ok a → (k a).reg r = s.reg r) : t.reg r = s.reg r := by
  rcases State.checked_next_iff.1 h with ⟨a, ha, rfl⟩ | ⟨c, -, rfl⟩
  · exact hk a ha
  · exact s.raise_reg _ c r

theorem execLdVxK_keeps_reg {x r : Nibble} (hr : r ≠ x) (h : execLdVxK x s = .next t) : t.reg r = s.reg r := by
  unfold execLdVxK at h
  split at h
  next => cases h; exact s.reg_takeKey_other 0 hr
  next => cases h; exact s.reg_takeKey_other _ hr

/-- `Fx65` writes V0, …, Vx alone (R86). -/
theorem execLdVxMem_keeps_reg {x r : Nibble} (hr : ¬ r.toNat ≤ x.toNat) (h : execLdVxMem x s = .next t) :
    t.reg r = s.reg r := by
  refine State.checked_keeps_reg h fun as has => ?_
  obtain ⟨-, rfl⟩ := (s.readBlock_ok_iff _ _).1 has
  exact (s.reg_loadBlock x r).trans (if_neg hr)

/-- Settles O16: an instruction whose parts leave out the registers keeps them all, by its frame; each other one writes its
destination, or its destination and VF, or VF alone, or V0, …, Vx. -/
theorem everyInstructionWritesOnlyItsRegisters : Obligations.EveryInstructionWritesOnlyItsRegisters := by
  intro i s t h r hr
  by_cases hv : .v ∈ partsWritten i
  case neg => exact everyInstructionWritesOnlyItsParts i s t h .v hv r
  cases i with
  | ldByte x _ | addByte x _ | ldReg x _ | orReg x _ | andReg x _ | xorReg x _ | rnd x _ | ldVxDt x =>
    cases h
    exact s.reg_setReg_other _ (ne_of_beq_false hr)
  | addReg x _ | shr x _ | shl x _ =>
    cases h
    exact regsKept_flagThenResult s x _ _ r (by simpa [writesReg] using hr)
  | sub x _ | subn x _ =>
    cases h
    exact regsKept_resultThenFlag s x _ _ r (by simpa [writesReg] using hr)
  | drw x y n => exact State.checked_keeps_reg h fun as _ => s.reg_drawSprite_other x y as (ne_of_beq_false hr)
  | ldVxK x => exact execLdVxK_keeps_reg (ne_of_beq_false hr) h
  | ldVxMem x => exact execLdVxMem_keeps_reg (of_decide_eq_false hr) h
  | _ => simp [partsWritten] at hv

end Sys2Proof.Machine
end

