-- ==== Sys2Proof/Proofs/Reset.lean ====
section
/-! The state after power on and after a reset: its memory byte by byte (70_reset_and_hazards.md R116, R117), its other parts
(10_state.md R23), and the invariant in both. -/

namespace Sys2Proof.Machine

/-! ### The reset contents of memory -/

/-- Byte `k` of glyph `d` lies at `5 * d + k` (R26, R27). -/
theorem initialByte_glyph (c : Config) (d : Fin 16) (k : Fin 5) :
    initialByte c (5 * d.val + k.val) = (c.font.get d).get k := by
  have hlt : 5 * d.val + k.val < 80 := by omega
  have hdiv : (5 * d.val + k.val) / 5 = d.val := by omega
  have hmod : (5 * d.val + k.val) % 5 = k.val := by omega
  simp only [initialByte, hlt, dif_pos, hdiv, hmod]
  rfl

/-- Behind the font the reset contents are zeros (R23). -/
theorem initialByte_of_le {c : Config} {a : Nat} (h : 80 ≤ a) : initialByte c a = 0 := dif_neg (by omega)

/-! ### Power on -/

@[simp] theorem State.powerOn_reg (c : Config) (r : Nibble) : (State.powerOn c).reg r = 0 :=
  Vector.getElem_replicate r.isLt

@[simp] theorem State.powerOn_keyPressed (c : Config) (k : Nibble) : (State.powerOn c).keyPressed k = false :=
  Vector.getElem_replicate k.isLt

@[simp] theorem State.powerOn_pixel (c : Config) (px py : Nat) : (State.powerOn c).pixel px py = false := by
  simp [State.pixel, Surface.pixel, State.powerOn]

/-- Memory lists nothing at power on, the stack is empty, `pc` is 0x200 and the block runs. -/
theorem State.powerOn_inv (c : Config) : (State.powerOn c).Inv where
  memCanonical := rfl
  stackFits := Nat.zero_le _
  fontKept _ _ _ := rfl
  pcBounded _ := (by decide : (0x200 : Word).toNat ≤ 0x10FE)
  returnsBounded _ _ hr := nomatch hr
  errorAtPc _ he := nomatch he

/-- Settles O18: reset is power on with the default parameters. -/
theorem resetMeetsTheInvariant : Obligations.ResetMeetsTheInvariant :=
  ⟨State.powerOn_inv _, State.powerOn_inv⟩

/-! ### A reset with an image -/

/-- An image that fits leaves memory canonical. -/
theorem State.resetWith_wf (s : State) {rom : List Byte} (h : rom.length ≤ 3584) :
    Memory.wf s.cfg (s.resetWith rom).mem = true :=
  (State.loadRom_spec rom { State.powerOn s.cfg with draws := s.draws, agenda := s.agenda } programStart rfl
    (by simp only [programStart, memSize]; omega)).1

/-- Below program space a reset leaves the reset contents (R116). -/
theorem State.byteAt_resetWith_low (s : State) {rom : List Byte} (h : rom.length ≤ 3584) {a : Nat} (ha : a < 0x200) :
    (s.resetWith rom).byteAt a = initialByte s.cfg a := by
  rw [s.byteAt_resetWith rom h, dif_neg (by omega)]

/-- From 0x200 on a reset leaves the image and then zeros (R117). -/
theorem State.byteAt_resetWith_image (s : State) {rom : List Byte} (h : rom.length ≤ 3584) (j : Nat) :
    (s.resetWith rom).byteAt (0x200 + j) = rom.getD j 0 := by
  rw [s.byteAt_resetWith rom h]
  by_cases hj : j < rom.length
  · rw [dif_pos (by omega), List.getD_eq_getElem _ _ hj]
    simp
  · rw [dif_neg (by omega), initialByte_of_le (by omega), List.getD_eq_default _ _ (by omega)]

/-- A reset with an image that fits meets the invariant, from any state. -/
theorem State.resetWith_inv (s : State) {rom : List Byte} (h : rom.length ≤ 3584) : (s.resetWith rom).Inv := by
  have hwf := s.resetWith_wf h
  have hbyte (a : Nat) (ha : a < fontBytes) : (s.resetWith rom).byteAt a = initialByte s.cfg a :=
    s.byteAt_resetWith_low h (by simp only [fontBytes] at ha; omega)
  obtain ⟨m, hm⟩ := s.resetWith_rest rom
  rw [hm] at hwf hbyte ⊢
  exact { State.powerOn_inv s.cfg with memCanonical := hwf, fontKept := fun _ => hbyte }

/-- Settles O52: memory by the lemmas above, every other part as at power on by `resetWith_rest`. -/
theorem resetPlacesFontAndImage : Obligations.ResetPlacesFontAndImage := by
  intro s rom rest hagenda hrom
  have hreset : (s.setAgenda rest).hostReset rom = .next ((s.setAgenda rest).resetWith rom) :=
    State.hostReset_of_fits hrom
  have hstep : step s = (s.setAgenda rest).hostReset rom := by rw [step, hagenda]; rfl
  have hlow {a : Nat} (ha : a < 0x200) : ((s.setAgenda rest).resetWith rom).byteAt a = initialByte s.cfg a :=
    (s.setAgenda rest).byteAt_resetWith_low hrom ha
  have hfont (d : Fin 16) (k : Fin 5) :
      ((s.setAgenda rest).resetWith rom).byteAt (5 * d.val + k.val) = (s.cfg.font.get d).get k :=
    (hlow (by omega)).trans (initialByte_glyph s.cfg d k)
  have hzero (a : Nat) (h1 : 0x50 ≤ a) (h2 : a < 0x200) : ((s.setAgenda rest).resetWith rom).byteAt a = 0 :=
    (hlow h2).trans (initialByte_of_le h1)
  have himage (j : Nat) (_ : j < 3584) : ((s.setAgenda rest).resetWith rom).byteAt (0x200 + j) = rom.getD j 0 :=
    (s.setAgenda rest).byteAt_resetWith_image hrom j
  refine ⟨_, hstep.trans hreset, hreset, ?_⟩
  obtain ⟨m, hm⟩ := (s.setAgenda rest).resetWith_rest rom
  rw [hm] at hfont hzero himage ⊢
  exact ⟨rfl, rfl, rfl, rfl, rfl, rfl, State.powerOn_reg s.cfg, State.powerOn_keyPressed s.cfg,
    State.powerOn_pixel s.cfg, hfont, hzero, himage, rfl, rfl, rfl, rfl⟩

end Sys2Proof.Machine
end

