-- ==== Sys2Proof/Proofs/Invariant.lean ====
section
/-! The invariant of Safety.lean is kept by every transition: by error entry, by an instruction that was fetched, by a step
of the CPU, and by the host's events. -/

namespace Sys2Proof.Machine

/-! ### Operations of any state -/

/-- Error entry writes a record that names `pc`, and nothing else (R102). -/
theorem State.Inv.raise {s : State} (hi : s.Inv) (w : Option Word) (c : Cause) : (s.raise w c).Inv :=
  { hi with errorAtPc := fun _ he => (s.raise_record w c he).1 }

/-- What the host does next is no part of the invariant. -/
theorem State.Inv.setAgenda {s : State} (hi : s.Inv) (es : List HostEvent) : (s.setAgenda es).Inv := { hi with }

theorem State.Inv.tick {s : State} (hi : s.Inv) : s.tick.Inv := { hi with }

theorem State.Inv.setKey {s : State} (hi : s.Inv) (k : Nibble) (p : Bool) : (s.setKey k p).Inv := { hi with }

theorem State.Inv.hostReset {s t : State} {rom : List Byte} (h : s.hostReset rom = .next t) : t.Inv := by
  unfold State.hostReset at h
  split at h
  next hfits => cases h; exact s.resetWith_inv (of_decide_eq_true hfits)
  next => cases h

/-- Error entry keeps the invariant, so a checked instruction keeps it when its continuation does. -/
theorem State.Inv.checked {α : Type} {s t : State} {i : Instr} {r : Except Cause α} {k : α → State} (hi : s.Inv)
    (h : s.checked i r k = .next t) (hk : ∀ a, r = .ok a → (k a).Inv) : t.Inv := by
  rcases State.checked_next_iff.1 h with ⟨a, ha, rfl⟩ | ⟨e, -, rfl⟩
  · exact hk a ha
  · exact hi.raise _ e

/-- A block store that passed the write checks keeps memory canonical and, where its writes are errors, the font. -/
theorem State.Inv.storeBlock {s : State} (hi : s.Inv) {n : Nat} {bs : List Byte} (hw : s.CanWrite n)
    (hb : bs.length = n) : (s.storeBytes ((s.blockAddrs n).zip bs)).Inv := by
  have hwf := State.storeBytes_wf hi.memCanonical (s.zip_blockAddrs_lt (n := n) (bs := bs))
  have hfont (hp : s.cfg.fontWritePolicy = .fault) (a : Nat) (ha : a < fontBytes) :
      (s.storeBytes ((s.blockAddrs n).zip bs)).byteAt a = initialByte s.cfg a := by
    have hoff : a ∉ s.blockAddrs n := by
      intro hmem
      obtain ⟨k, hk, rfl⟩ := State.mem_blockAddrs.1 hmem
      obtain ⟨-, hle | hallow⟩ := hw k hk
      · exact absurd ha (not_lt.2 hle)
      · rw [hp] at hallow; cases hallow
    rw [State.byteAt_storeBlock_off hi.memCanonical hb a hoff, hi.fontKept hp a ha]
  obtain ⟨m, hm⟩ := s.storeBytes_rest ((s.blockAddrs n).zip bs)
  rw [hm] at hwf hfont ⊢
  exact { hi with memCanonical := hwf, fontKept := hfont }

/-! ### Instructions that were fetched -/

/-- The states in which a step of the CPU executes an instruction: the block is running and, where addresses do not wrap,
both bytes at `pc` are inside memory (R40). -/
structure State.Fetched (s : State) : Prop where
  inv : s.Inv
  running : s.status = .running
  pcInside : s.cfg.addrPolicy = .fault → s.pc.toNat ≤ 0xFFE

namespace State.Fetched

variable {s t : State} (hs : s.Fetched)

include hs

/-- Parameters, memory, stack and status kept, only the bound of `pc` is left to show. Where `t` is written with field
updates of `s`, the other arguments are found. -/
theorem inv_of_pc (hpc : s.cfg.addrPolicy = .fault → t.pc.toNat ≤ 0x10FE) (hstatus : t.status = s.status := by rfl)
    (hcfg : t.cfg = s.cfg := by rfl) (hmem : t.mem = s.mem := by rfl) (hstack : t.stack = s.stack := by rfl) :
    t.Inv where
  memCanonical := by rw [hcfg, hmem]; exact hs.inv.memCanonical
  stackFits := by rw [hcfg, hstack]; exact hs.inv.stackFits
  fontKept := by simpa only [State.byteAt, hcfg, hmem] using hs.inv.fontKept
  pcBounded := by rw [hcfg]; exact hpc
  returnsBounded := by rw [hcfg, hstack]; exact hs.inv.returnsBounded
  errorAtPc e he := by rw [hstatus, hs.running] at he; cases he

/-- The address of the next instruction, which a call pushes, is in the bound of the return addresses. -/
theorem pc_add_two_le (hp : s.cfg.addrPolicy = .fault) : (s.pc + 2).toNat ≤ 0x1000 := by
  have := hs.pcInside hp
  bv_omega

/-- `pc + 4`, the farther of a skip's targets, is in the bound of `pc` (R57). -/
theorem skipIf_inv (cond : Bool) : (s.skipIf cond).Inv := by
  refine hs.inv_of_pc fun hp => ?_
  have := hs.pcInside hp
  rw [State.skipIf_toNat]
  split <;> omega

/-- An instruction that goes on at `pc + 2` and keeps parameters, memory, stack and status keeps the invariant. -/
theorem inv_of_advance (hpc : t.pc = s.pc + 2 := by rfl) (hstatus : t.status = s.status := by rfl)
    (hcfg : t.cfg = s.cfg := by rfl) (hmem : t.mem = s.mem := by rfl) (hstack : t.stack = s.stack := by rfl) :
    t.Inv :=
  hs.inv_of_pc (fun hp => by have := hs.pc_add_two_le hp; rw [hpc]; omega) hstatus hcfg hmem hstack

theorem jpV0_inv (nnn : Addr) : (s.setPc (byteOperand (s.reg 0) + addrOperand nnn)).Inv := by
  refine hs.inv_of_pc fun _ => ?_
  have := (s.reg 0).isLt
  have := nnn.isLt
  rw [State.setPc_pc, BitVec.toNat_add, byteOperand_toNat, addrOperand_toNat]
  omega

theorem jp_inv (nnn : Addr) : (s.setPc (addrOperand nnn)).Inv := by
  refine hs.inv_of_pc fun _ => ?_
  have := nnn.isLt
  rw [State.setPc_pc, addrOperand_toNat]
  omega

/-- A call that fits pushes `pc + 2` and goes on at `nnn` (R62). -/
theorem call_inv {nnn : Addr} {k : List Word} (h : pushed s.cfg.stackDepth s.stack (s.pc + 2) = .ok k) :
    ((s.setStack k).setPc (addrOperand nnn)).Inv := by
  obtain ⟨hlt, rfl⟩ := pushed_ok_iff.1 h
  exact { hs.jp_inv nnn with
    stackFits := by simpa using hlt
    returnsBounded := fun hp r hr => by
      rcases List.mem_append.1 hr with hr | hr
      · exact hs.inv.returnsBounded hp r hr
      · rw [List.mem_singleton.1 hr]; exact hs.pc_add_two_le hp }

/-- A return goes on at the entry it pops, which is in the bound of the return addresses (R60). -/
theorem ret_inv {p : Word × List Word} (h : popped s.stack = .ok p) : ((s.setStack p.2).setPc p.1).Inv := by
  have hstack : s.stack = p.2 ++ [p.1] := popped_ok_iff.1 h
  have hbound (hp : s.cfg.addrPolicy = .fault) (r : Word) (hr : r ∈ p.2 ++ [p.1]) : r.toNat ≤ 0x1000 :=
    hs.inv.returnsBounded hp r (hstack ▸ hr)
  have hfits : (p.2 ++ [p.1]).length ≤ s.cfg.stackDepth := hstack ▸ hs.inv.stackFits
  exact { hs.inv_of_pc (t := s.setPc p.1) fun hp => (hbound hp p.1 (by simp)).trans (by decide) with
    stackFits := (by simp : p.2.length ≤ (p.2 ++ [p.1]).length).trans hfits
    returnsBounded := fun hp r hr => hbound hp r (List.mem_append_left _ hr) }

/-- A block store leaves a state that was fetched one that was fetched. -/
theorem storeBlock {n : Nat} {bs : List Byte} (hw : s.CanWrite n) (hb : bs.length = n) :
    (s.storeBytes ((s.blockAddrs n).zip bs)).Fetched := by
  have hi := hs.inv.storeBlock hw hb
  obtain ⟨m, hm⟩ := s.storeBytes_rest ((s.blockAddrs n).zip bs)
  rw [hm] at hi ⊢
  exact ⟨hi, hs.running, hs.pcInside⟩

theorem takeKey_inv (draw : Nat) (x : Nibble) : (s.takeKey draw x).Inv := by
  unfold State.takeKey
  split
  next => exact hs.inv
  next k _ => exact hs.inv_of_advance

theorem execLdVxK_inv {x : Nibble} (h : execLdVxK x s = .next t) : t.Inv := by
  unfold execLdVxK at h
  split at h
  next => cases h; exact hs.takeKey_inv 0 x
  next => cases h; exact { hs.takeKey_inv (Config.keyDraw s.draws) x with }

theorem execLdBVx_inv {x : Nibble} (h : execLdBVx x s = .next t) : t.Inv := by
  refine hs.inv.checked h fun as has => ?_
  obtain ⟨hw, rfl⟩ := (s.writeBlock_ok_iff _ _).1 has
  exact (hs.storeBlock hw rfl).inv_of_advance

theorem execLdMemVx_inv {x : Nibble} (h : execLdMemVx x s = .next t) : t.Inv := by
  refine hs.inv.checked h fun as has => ?_
  obtain ⟨hw, rfl⟩ := (s.writeBlock_ok_iff _ _).1 has
  exact (hs.storeBlock hw (s.regsUpTo_length x)).inv_of_advance

theorem execLdVxMem_inv {x : Nibble} (h : execLdVxMem x s = .next t) : t.Inv := by
  refine hs.inv.checked h fun as _ => ?_
  obtain ⟨v, hv⟩ := s.loadRegs_rest as 0
  rw [hv]
  exact hs.inv_of_advance

/-- Every instruction keeps the invariant: jumps, skips, calls, returns, stores, the block load and `Fx0A` by the lemmas
above, and every other one goes on at `pc + 2` and writes neither memory nor the stack. -/
theorem exec_inv {i : Instr} (h : exec i s = .next t) : t.Inv := by
  cases i with
  | ret => exact hs.inv.checked h fun p hp => hs.ret_inv hp
  | call nnn => exact hs.inv.checked h fun k hk => hs.call_inv hk
  | jp nnn => cases h; exact hs.jp_inv nnn
  | jpV0 nnn => cases h; exact hs.jpV0_inv nnn
  | seByte x nn | sneByte x nn | seReg x y | sneReg x y => cases h; exact hs.skipIf_inv _
  | skp x | sknp x => exact hs.inv.checked h fun k _ => hs.skipIf_inv _
  | drw x y n => exact hs.inv.checked h fun as _ => hs.inv_of_advance
  | ldVxK x => exact hs.execLdVxK_inv h
  | ldBVx x => exact hs.execLdBVx_inv h
  | ldMemVx x => exact hs.execLdMemVx_inv h
  | ldVxMem x => exact hs.execLdVxMem_inv h
  | _ => cases h; exact hs.inv_of_advance

end State.Fetched

/-! ### Steps and transitions -/

/-- A step of the CPU stays as it is in Halted, executes an instruction that was fetched, or enters an error. -/
theorem State.Inv.cpuStep {s t : State} (hi : s.Inv) (h : Machine.cpuStep s = .next t) : t.Inv := by
  rcases cpuStep_cases s with ⟨e, -, hc⟩ | ⟨hrun, ⟨w, i, hw, -, hc⟩ | ⟨w, -, -, hc⟩ | ⟨e, -, hc⟩⟩ <;> rw [hc] at h
  · cases h; exact hi
  · exact State.Fetched.exec_inv ⟨hi, hrun, State.pc_of_fetch hw⟩ h
  · cases h; exact hi.raise _ _
  · cases h; exact hi.raise none e

/-- Settles O17: each of the transitions of `step_cases` keeps the invariant. -/
theorem everyTransitionKeepsTheInvariant : Obligations.EveryTransitionKeepsTheInvariant := by
  intro s t hi h
  rcases step_cases s with ⟨u, hu, hs⟩ | ⟨rest, -, hs⟩ | ⟨k, p, rest, -, hs⟩ | ⟨rom, rest, -, hs⟩ <;> rw [hs] at h
  · rw [State.cpuTurn_rest hu] at h
    exact (hi.setAgenda _).cpuStep h
  · cases h; exact (hi.setAgenda rest).tick
  · cases h; exact (hi.setAgenda rest).setKey k p
  · exact State.Inv.hostReset h

end Sys2Proof.Machine
end

