-- ==== Sys2Proof/Proofs/CanonicalMemory.lean ====
section
/-! Memory in canonical form is determined by what it reads (20_memory.md R33; log 8). -/

namespace Sys2Proof.Machine

variable {c : Config}

/-- The first cell of a canonical memory tells it from every canonical memory that begins behind that cell: the one reads
there as its cell, the other as the reset contents, which no cell of a canonical memory repeats. -/
theorem Memory.read_head_ne {lo lo' a : Nat} {b : Byte} {m n : Memory} (hm : Memory.wfFrom c lo ((a, b) :: m) = true)
    (hn : Memory.wfFrom c lo' n = true) (ha : a < lo') : Memory.read c ((a, b) :: m) a ≠ Memory.read c n a := by
  obtain ⟨-, -, hb, -⟩ := Memory.wfFrom_cons.1 hm
  rwa [Memory.read_of_wfFrom hn ha, Memory.read, if_pos rfl]

/-- A canonical memory may as well begin at its first cell. -/
theorem Memory.wfFrom_head {lo a : Nat} {b : Byte} {m : Memory} (h : Memory.wfFrom c lo ((a, b) :: m) = true) :
    Memory.wfFrom c a ((a, b) :: m) = true :=
  Memory.wfFrom_cons.2 ⟨le_rfl, (Memory.wfFrom_cons.1 h).2⟩

/-- Canonical memories that begin with a cell for the same address and read the same have tails that read the same. -/
theorem Memory.read_tail_eq {a : Nat} {b d : Byte} {m n : Memory} (hm : Memory.wfFrom c (a + 1) m = true)
    (hn : Memory.wfFrom c (a + 1) n = true)
    (hr : ∀ z, Memory.read c ((a, b) :: m) z = Memory.read c ((a, d) :: n) z) (z : Nat) :
    Memory.read c m z = Memory.read c n z := by
  by_cases hz : z = a
  · rw [Memory.read_of_wfFrom hm (by omega), Memory.read_of_wfFrom hn (by omega)]
  · simpa only [Memory.read, if_neg hz] using hr z

/-- Canonical memories that read the same have equal cells: the first cells are for the same address, since otherwise
the lower one tells them apart, and so on through the tails. -/
theorem Memory.eq_of_read_eq {lo : Nat} {m n : Memory} (hm : Memory.wfFrom c lo m = true)
    (hn : Memory.wfFrom c lo n = true) (hr : ∀ z, Memory.read c m z = Memory.read c n z) : m = n := by
  induction m generalizing lo n with
  | nil =>
    cases n with
    | nil => rfl
    | cons e n => exact absurd (hr e.1).symm (Memory.read_head_ne hn (n := []) rfl (Nat.lt_succ_self e.1))
  | cons e m ih =>
    obtain ⟨a, b⟩ := e
    cases n with
    | nil => exact absurd (hr a) (Memory.read_head_ne hm (n := []) rfl (Nat.lt_succ_self a))
    | cons e n =>
      obtain ⟨a', b'⟩ := e
      rcases Nat.lt_trichotomy a a' with hlt | rfl | hgt
      · exact absurd (hr a) (Memory.read_head_ne hm (Memory.wfFrom_head hn) hlt)
      · have hb : b = b' := by simpa only [Memory.read, if_pos] using hr a
        obtain ⟨-, -, -, hm⟩ := Memory.wfFrom_cons.1 hm
        obtain ⟨-, -, -, hn⟩ := Memory.wfFrom_cons.1 hn
        rw [hb, ih hm hn (Memory.read_tail_eq hm hn hr)]
      · exact absurd (hr a').symm (Memory.read_head_ne hn (Memory.wfFrom_head hm) hgt)

/-- Settles O20: the canonical form is that from address 0 on. -/
theorem equalReadsMeanEqualMemory : Obligations.EqualReadsMeanEqualMemory :=
  fun _ _ _ hm hn hr => Memory.eq_of_read_eq hm hn hr

end Sys2Proof.Machine
end

