-- ==== Sys2Proof/Proofs/Fetch.lean ====
section
/-! What a fetch answers (20_memory.md R31, R40), what the CPU's step then does, and the errors of a fetch
(60_exceptions.md R97, R100). -/

namespace Sys2Proof.Machine

/-! ### The three ways a fetch fails (R101) -/

section
variable {c : Config}

/-- The first byte is met first. -/
theorem checkFetch_of_first_outside {pc : Nat} (hp : c.addrPolicy = .fault) (h : 0xFFF < pc) :
    checkFetch c pc = .error (.addressOutOfRange pc) := by
  rw [checkFetch, checkAddr_error_iff.2 ⟨h, hp, rfl⟩]

/-- At 0xFFF the second byte alone lies outside memory. -/
theorem checkFetch_of_second_outside (hp : c.addrPolicy = .fault) :
    checkFetch c 0xFFF = .error (.addressOutOfRange 0x1000) := by
  rw [checkFetch, checkAddr_ok_iff.2 ⟨.inl le_rfl, rfl⟩, checkAddr_error_iff.2 ⟨by decide, hp, rfl⟩]

/-- Program space is checked last, and by the first byte's address. -/
theorem checkFetch_of_low {pc : Nat} (hp : c.lowFetchPolicy = .fault)
    (hin : pc + 1 ≤ 0xFFF ∨ c.addrPolicy = .wrap12) (hlow : pc % 4096 < programStart) :
    checkFetch c pc = .error (.fetchOutsideProgram (pc % 4096)) := by
  have h0 : checkAddr c pc = .ok (pc % 4096) := checkAddr_ok_iff.2 ⟨hin.imp_left (by omega), rfl⟩
  have h1 : checkAddr c (pc + 1) = .ok ((pc + 1) % 4096) := checkAddr_ok_iff.2 ⟨hin, rfl⟩
  rw [checkFetch, h0, h1]
  exact if_pos ⟨hp, hlow⟩

end

variable {s t : State}

/-- A fetch that passes its checks reads the word at `pc` (R40, R47). -/
theorem State.fetch_of_inside (hin : s.pc.toNat + 1 ≤ 0xFFF ∨ s.cfg.addrPolicy = .wrap12)
    (hlow : programStart ≤ s.pc.toNat % 4096 ∨ s.cfg.lowFetchPolicy = .allow) :
    s.fetch = .ok (wordOfBytes (s.byteAt (s.pc.toNat % 4096)) (s.byteAt ((s.pc.toNat + 1) % 4096))) := by
  rw [State.fetch, checkFetch_ok_iff.2 ⟨hin, hlow, rfl⟩]

theorem State.fetch_of_checkFetch_error {e : Cause} (h : checkFetch s.cfg s.pc.toNat = .error e) :
    s.fetch = .error e := by
  rw [State.fetch, h]

/-! ### The step after a fetch -/

/-- A running block executes the instruction it fetches (R55). -/
theorem cpuStep_of_fetch {w : Word} {i : Instr} (hrun : s.status = .running) (hf : s.fetch = .ok w)
    (hd : decodeWord w = some i) : cpuStep s = exec i s := by
  have hfd : s.fetchDecode = .ok i := by rw [State.fetchDecode, hf]; simp only [hd]
  rw [cpuStep, hrun, hfd]

/-- A running block that cannot fetch enters the error, without a word (R93). -/
theorem cpuStep_of_fetch_error {e : Cause} (hrun : s.status = .running) (hf : s.fetch = .error e) :
    cpuStep s = .next (s.raise none e) := by
  rw [cpuStep, hrun, State.fetchDecode, hf]

/-- On the CPU's turn of a running block, a fetch that fails its checks halts it with the record of R93, and changes nothing
else (R102). -/
theorem step_of_checkFetch_error {e : Cause} (hturn : s.cpuTurn = some t) (hrun : t.status = .running)
    (h : checkFetch t.cfg t.pc.toNat = .error e) :
    ∃ u, step s = .next u ∧ OnlyChanges [.status] t u ∧ u.status = .halted (e.record t.pc none) :=
  ⟨t.raise none e, (step_of_cpuTurn hturn).trans (cpuStep_of_fetch_error hrun (State.fetch_of_checkFetch_error h)),
    t.raise_onlyChanges none e, t.raise_status none e⟩

/-- Settles O8: each of the three ways `CheckFetch` fails, with the record of its cause. -/
theorem fetchFailuresHaltTheBlock : Obligations.FetchFailuresHaltTheBlock := by
  intro s t hturn hrun
  refine ⟨fun hp h => ?_, fun hp h => ?_, fun hp hin hlow => ?_⟩
  · exact step_of_checkFetch_error hturn hrun (checkFetch_of_first_outside hp h)
  · exact step_of_checkFetch_error hturn hrun (h ▸ checkFetch_of_second_outside hp)
  · exact step_of_checkFetch_error hturn hrun (checkFetch_of_low hp hin hlow)

end Sys2Proof.Machine
end

