-- ==== Sys2Proof/Proofs/FontAndStoredCode.lean ====
section
/-! Memory that an instruction leaves for what follows it: the font under `I` after `Fx29` (20_memory.md R26, R27), and code
behind `pc` after `Fx55` (R45). -/

namespace Sys2Proof.Machine

/-! ### The font -/

/-- Where font writes are errors, the invariant keeps glyph `d` at `5 * d` (R27, R32). -/
theorem State.Inv.byteAt_glyph {s : State} (hi : s.Inv) (hp : s.cfg.fontWritePolicy = .fault) (d : Fin 16) (k : Fin 5) :
    s.byteAt (5 * d.val + k.val) = (s.cfg.font.get d).get k :=
  (hi.fontKept hp _ (by simp only [fontBytes]; omega)).trans (initialByte_glyph s.cfg d k)

/-- Settles O38: `Fx29` leaves memory as it is and sets `I` to `5 * d`. -/
theorem fontAddressFindsTheGlyph : Obligations.FontAddressFindsTheGlyph := by
  intro x s d hi hp hd
  have hindex : (fontAddress (s.reg x)).toNat = 5 * d.val := by rw [fontAddress_toNat, hd, Nat.mul_comm]
  refine ⟨(s.setIndex (fontAddress (s.reg x))).advance, rfl, fun k => ?_⟩
  rw [State.advance_byteAt, State.setIndex_byteAt, State.advance_index, State.setIndex_index, hindex]
  exact hi.byteAt_glyph hp d k

/-! ### Block stores of registers -/

section
variable {s t : State} {x : Nibble}

/-- `Fx55` completes exactly as R85 says wherever the block may be written. -/
theorem execLdMemVx_of_canWrite (hw : s.CanWrite (x.toNat + 1)) :
    exec (.ldMemVx x) s =
      .next ((s.storeBytes ((s.blockAddrs (x.toNat + 1)).zip (s.regsUpTo x))).bumpIndex x).advance :=
  State.checked_ok ((s.writeBlock_ok_iff _ _).2 ⟨hw, rfl⟩)

/-- A completed `Fx55` leaves `V[r]` at `I + r`, for each register it stores. -/
theorem execLdMemVx_byteAt (hwf : Memory.wf s.cfg s.mem = true) (hw : s.CanWrite (x.toNat + 1))
    (h : exec (.ldMemVx x) s = .next t) {r : Nibble} (hr : r.toNat ≤ x.toNat) :
    t.byteAt (s.blockAddr r.toNat) = s.reg r := by
  have := x.isLt
  cases (execLdMemVx_of_canWrite hw).symm.trans h
  exact (State.byteAt_storeBlock_on hwf (by omega) (s.regsUpTo_length x) (Nat.lt_succ_of_le hr)).trans
    (s.regsUpTo_getElem hr)

/-- A completed `Fx55` goes on at `pc + 2`. -/
theorem execLdMemVx_pc (hw : s.CanWrite (x.toNat + 1)) (h : exec (.ldMemVx x) s = .next t) : t.pc = s.pc + 2 := by
  cases (execLdMemVx_of_canWrite hw).symm.trans h
  obtain ⟨m, hm⟩ := s.storeBytes_rest ((s.blockAddrs (x.toNat + 1)).zip (s.regsUpTo x))
  rw [hm]
  rfl

/-- A completed `Fx55` changes memory, `I` and `pc` alone. -/
theorem execLdMemVx_onlyChanges (hw : s.CanWrite (x.toNat + 1)) (h : exec (.ldMemVx x) s = .next t) :
    OnlyChanges [.mem, .index, .pc] s t := by
  cases (execLdMemVx_of_canWrite hw).symm.trans h
  exact s.storeBytes_onlyChanges _ (fun u => (u.bumpIndex x).advance) fun _ => onlyChanges_of

end

/-! ### Code -/

/-- Two bytes decode, with nothing left over, to what their word decodes to (R47). -/
theorem decode_two_ok_iff {hi lo : Byte} {i : Instr} :
    decode [hi, lo] = .ok (i, []) ↔ decodeWord (wordOfBytes hi lo) = some i := by
  rw [decode]
  cases decodeWord (wordOfBytes hi lo) with
  | none => simp
  | some j => simp

/-- A block at an address of program memory may be written. -/
theorem State.canWrite_of_program {s : State} {n : Nat} (hlo : programStart ≤ s.index.toNat)
    (hhi : s.index.toNat + n ≤ memSize) : s.CanWrite n := by
  simp only [programStart, memSize] at hlo hhi
  intro k hk
  exact ⟨.inl (by omega), .inl (by rw [State.blockAddr]; omega)⟩

/-- Settles O45: the store puts V0 and V1 at the next `pc`, where the next fetch reads them. -/
theorem storedInstructionRunsNext : Obligations.StoredInstructionRunsNext := by
  intro s t i hwf hrun hagenda hlo hhi hindex hexec hdecode
  have hpc2 : (s.pc + 2).toNat = s.pc.toNat + 2 := by bv_omega
  have hw : s.CanWrite ((1 : Nibble).toNat + 1) :=
    State.canWrite_of_program (by rw [hindex, hpc2, programStart]; omega) (by rw [hindex, hpc2, memSize]; simp; omega)
  have hkept := execLdMemVx_onlyChanges hw hexec
  have hcfg : t.cfg = s.cfg := hkept .cfg (by decide)
  have hturn : t.cpuTurn = some t := by rw [State.cpuTurn, hkept .agenda (by decide), hagenda]
  have hpc : t.pc = s.index := (execLdMemVx_pc hw hexec).trans hindex.symm
  have hfetch : t.fetch = .ok (wordOfBytes (s.reg 0) (s.reg 1)) := by
    rw [State.fetch_of_inside (by rw [hpc, hindex, hpc2]; omega) (by rw [hpc, hindex, hpc2, programStart]; omega), hpc]
    have h0 : t.byteAt (s.index.toNat % 4096) = s.reg 0 := execLdMemVx_byteAt hwf hw hexec (r := 0) (by decide)
    have h1 : t.byteAt ((s.index.toNat + 1) % 4096) = s.reg 1 := execLdMemVx_byteAt hwf hw hexec (r := 1) (by decide)
    rw [h0, h1]
  rw [step_of_cpuTurn hturn]
  exact cpuStep_of_fetch ((hkept .status (by decide)).trans hrun) hfetch (decode_two_ok_iff.1 hdecode)

end Sys2Proof.Machine
end

