-- ==== Sys2Proof/Proofs/Encoding.lean ====
section
/-! The decoder and the encoder are inverse to each other (30_encoding.md R51, R53). -/

namespace Sys2Proof

variable {w : Word} {i : Instr}

/-- The digit that is left when all others are excluded. -/
theorem nibble_eq_F : ∀ n : Nibble, n ≠ 0x0 → n ≠ 0x1 → n ≠ 0x2 → n ≠ 0x3 → n ≠ 0x4 → n ≠ 0x5 → n ≠ 0x6 → n ≠ 0x7 →
    n ≠ 0x8 → n ≠ 0x9 → n ≠ 0xA → n ≠ 0xB → n ≠ 0xC → n ≠ 0xD → n ≠ 0xE → n = 0xF := by
  intros
  bv_omega

/-! ### A word of which some digits are known -/

section
variable {a d : Nibble} {e : Byte}

theorem nibAddr_of_op (ha : opOf w = a) : nibAddr a (nnnOf w) = w := ha ▸ nibAddr_fields w

theorem nibByte_of_op (ha : opOf w = a) : nibByte a (xOf w) (nnOf w) = w := ha ▸ nibByte_fields w

theorem nibbles_of_op (ha : opOf w = a) : nibbles a (xOf w) (yOf w) (nOf w) = w := ha ▸ nibbles_fields w

theorem nibbles_of_op_n (ha : opOf w = a) (hd : nOf w = d) : nibbles a (xOf w) (yOf w) d = w := hd ▸ nibbles_of_op ha

theorem nibByte_of_op_nn (ha : opOf w = a) (he : nnOf w = e) : nibByte a (xOf w) e = w := he ▸ nibByte_of_op ha

end

/-! ### Decoding and encoding are inverse (R51, R53) -/

/-- The decoder finds in an instruction's word the fixed digits of its pattern and the operands. `CLS` and `RET` have no
operands; in every other word the fields are those it was written from. -/
theorem decodeWord_encode (i : Instr) : decodeWord (encode i) = some i := by
  cases i with
  | cls | ret => rfl
  | _ => simp [encode, decodeWord]

/-- A word that decodes is its digits: the fixed ones, which the decoder tested, and the operands, which it read.
Case `h_k` is that of the words whose first digit is `k - 1`. -/
theorem encode_of_decodeWord (h : decodeWord w = some i) : encode i = w := by
  unfold decodeWord at h
  split at h
  case h_1 =>
    split at h
    next hw => cases h; exact hw.symm
    next =>
      split at h
      next hw => cases h; exact hw.symm
      next => cases h
  case h_2 hop | h_3 hop | h_11 hop | h_12 hop => cases h; exact nibAddr_of_op hop
  case h_4 hop | h_5 hop | h_7 hop | h_8 hop | h_13 hop => cases h; exact nibByte_of_op hop
  case h_14 hop => cases h; exact nibbles_of_op hop
  case h_6 hop | h_9 hop | h_10 hop => split at h <;> cases h <;> exact nibbles_of_op_n hop ‹_›
  case h_15 hop => split at h <;> cases h <;> exact nibByte_of_op_nn hop ‹_›
  case h_16 =>
    have hop : opOf w = 0xF := by apply nibble_eq_F <;> assumption
    split at h <;> cases h <;> exact nibByte_of_op_nn hop ‹_›

/-- The bytes of a word that decodes are read as its instruction, whatever follows them (R47). -/
theorem decode_bytesOfWord (h : decodeWord w = some i) (rest : List Byte) :
    decode (bytesOfWord w ++ rest) = .ok (i, rest) := by
  simp only [bytesOfWord, List.cons_append, List.nil_append, decode, wordOfBytes_bytes, h]

/-- Settles O2, by case analysis of the instruction. -/
theorem decodeAfterEncodeIsIdentity : Obligations.DecodeAfterEncodeIsIdentity :=
  fun i => ⟨decodeWord_encode i, decode_bytesOfWord (decodeWord_encode i)⟩

/-- Settles O3, along the branches of the decoder. -/
theorem encodeAfterDecodeIsIdentity : Obligations.EncodeAfterDecodeIsIdentity :=
  fun _ _ => encode_of_decodeWord

/-- Settles O1, by evaluation. -/
theorem writtenWordsDecode : Obligations.WrittenWordsDecode := by
  unfold Obligations.WrittenWordsDecode
  decide

end Sys2Proof
end

