-- ==== Sys2Proof/Proofs/OpcodeMap.lean ====
section
/-! The opcode map and the table of illegal words decide every word as the decoder does: a word matches a row of the map
exactly when it decodes to an instruction of that row (30_encoding.md R50), and the words that decode to none are those of
the table (R52). -/

namespace Sys2Proof

variable {w : Word}

/-! ### A word of which a mask of the opcode map shows some digits (R50) -/

section
variable {a d : Nibble} {e : Byte}

theorem op_of_mask (h : w &&& 0xF000 = nibAddr a 0) : opOf w = a := by
  rw [and_mask_op] at h
  simpa using congrArg opOf h

theorem nibAddr_of_mask (h : w &&& 0xF000 = nibAddr a 0) : nibAddr a (nnnOf w) = w := nibAddr_of_op (op_of_mask h)

theorem nibByte_of_mask (h : w &&& 0xF000 = nibAddr a 0) : nibByte a (xOf w) (nnOf w) = w := nibByte_of_op (op_of_mask h)

theorem nibbles_of_mask (h : w &&& 0xF000 = nibAddr a 0) : nibbles a (xOf w) (yOf w) (nOf w) = w :=
  nibbles_of_op (op_of_mask h)

theorem nibbles_of_mask_n (h : w &&& 0xF00F = nibbles a 0 0 d) : nibbles a (xOf w) (yOf w) d = w := by
  rw [and_mask_op_n] at h
  exact nibbles_of_op_n (by simpa using congrArg opOf h) (by simpa using congrArg nOf h)

theorem nibByte_of_mask_nn (h : w &&& 0xF0FF = nibByte a 0 e) : nibByte a (xOf w) e = w := by
  rw [and_mask_op_nn] at h
  exact nibByte_of_op_nn (by simpa using congrArg opOf h) (by simpa using congrArg nnOf h)

end

/-! ### The opcode map (R50) -/

/-- A word that matches a row of the map is the word of an instruction of that row: its fixed digits are those of the row's
match, and its other digits are the operands. -/
theorem encode_of_matches (w : Word) :
    ∀ r ∈ opcodeTable, w &&& r.mask = r.matchBits → ∃ i, i.mnemonic = r.mnemonic ∧ encode i = w := by
  simp only [opcodeTable, List.cons_append, List.nil_append, List.forall_mem_cons, List.not_mem_nil, false_implies,
    implies_true, and_true]
  exact ⟨
    fun h => ⟨.cls, rfl, h.symm.trans (and_mask_all w)⟩,
    fun h => ⟨.ret, rfl, h.symm.trans (and_mask_all w)⟩,
    fun h => ⟨.jp _, rfl, nibAddr_of_mask h⟩,
    fun h => ⟨.call _, rfl, nibAddr_of_mask h⟩,
    fun h => ⟨.seByte _ _, rfl, nibByte_of_mask h⟩,
    fun h => ⟨.sneByte _ _, rfl, nibByte_of_mask h⟩,
    fun h => ⟨.seReg _ _, rfl, nibbles_of_mask_n h⟩,
    fun h => ⟨.ldByte _ _, rfl, nibByte_of_mask h⟩,
    fun h => ⟨.addByte _ _, rfl, nibByte_of_mask h⟩,
    fun h => ⟨.ldReg _ _, rfl, nibbles_of_mask_n h⟩,
    fun h => ⟨.orReg _ _, rfl, nibbles_of_mask_n h⟩,
    fun h => ⟨.andReg _ _, rfl, nibbles_of_mask_n h⟩,
    fun h => ⟨.xorReg _ _, rfl, nibbles_of_mask_n h⟩,
    fun h => ⟨.addReg _ _, rfl, nibbles_of_mask_n h⟩,
    fun h => ⟨.sub _ _, rfl, nibbles_of_mask_n h⟩,
    fun h => ⟨.shr _ _, rfl, nibbles_of_mask_n h⟩,
    fun h => ⟨.subn _ _, rfl, nibbles_of_mask_n h⟩,
    fun h => ⟨.shl _ _, rfl, nibbles_of_mask_n h⟩,
    fun h => ⟨.sneReg _ _, rfl, nibbles_of_mask_n h⟩,
    fun h => ⟨.ldI _, rfl, nibAddr_of_mask h⟩,
    fun h => ⟨.jpV0 _, rfl, nibAddr_of_mask h⟩,
    fun h => ⟨.rnd _ _, rfl, nibByte_of_mask h⟩,
    fun h => ⟨.drw _ _ _, rfl, nibbles_of_mask h⟩,
    fun h => ⟨.skp _, rfl, nibByte_of_mask_nn h⟩,
    fun h => ⟨.sknp _, rfl, nibByte_of_mask_nn h⟩,
    fun h => ⟨.ldVxDt _, rfl, nibByte_of_mask_nn h⟩,
    fun h => ⟨.ldVxK _, rfl, nibByte_of_mask_nn h⟩,
    fun h => ⟨.ldDtVx _, rfl, nibByte_of_mask_nn h⟩,
    fun h => ⟨.ldStVx _, rfl, nibByte_of_mask_nn h⟩,
    fun h => ⟨.ldFVx _, rfl, nibByte_of_mask_nn h⟩,
    fun h => ⟨.ldBVx _, rfl, nibByte_of_mask_nn h⟩,
    fun h => ⟨.ldMemVx _, rfl, nibByte_of_mask_nn h⟩,
    fun h => ⟨.ldVxMem _, rfl, nibByte_of_mask_nn h⟩,
    fun h => ⟨.addIVx _, rfl, nibByte_of_mask_nn h⟩⟩

/-- The map has one row for a mnemonic (R54). -/
theorem opcodeTable_mnemonics_nodup : (opcodeTable.map OpcodeRow.mnemonic).Nodup := by decide

/-- No two rows bear the same mnemonic, so a row is known by it. -/
theorem row_eq_of_mnemonic {r q : OpcodeRow} (hr : r ∈ opcodeTable) (hq : q ∈ opcodeTable)
    (h : r.mnemonic = q.mnemonic) : r = q :=
  List.inj_on_of_nodup_map opcodeTable_mnemonics_nodup hr hq h

/-- Every instruction's word matches the row that bears its mnemonic: `TableRow`'s lemmas, together. -/
theorem encode_matches (i : Instr) : Laws.TableRow.Statement i := by
  cases i with
  | cls => exact Laws.TableRow.cls
  | ret => exact Laws.TableRow.ret
  | jp nnn => exact Laws.TableRow.jp nnn
  | call nnn => exact Laws.TableRow.call nnn
  | seByte x nn => exact Laws.TableRow.seByte x nn
  | sneByte x nn => exact Laws.TableRow.sneByte x nn
  | seReg x y => exact Laws.TableRow.seReg x y
  | ldByte x nn => exact Laws.TableRow.ldByte x nn
  | addByte x nn => exact Laws.TableRow.addByte x nn
  | ldReg x y => exact Laws.TableRow.ldReg x y
  | orReg x y => exact Laws.TableRow.orReg x y
  | andReg x y => exact Laws.TableRow.andReg x y
  | xorReg x y => exact Laws.TableRow.xorReg x y
  | addReg x y => exact Laws.TableRow.addReg x y
  | sub x y => exact Laws.TableRow.sub x y
  | shr x y => exact Laws.TableRow.shr x y
  | subn x y => exact Laws.TableRow.subn x y
  | shl x y => exact Laws.TableRow.shl x y
  | sneReg x y => exact Laws.TableRow.sneReg x y
  | ldI nnn => exact Laws.TableRow.ldI nnn
  | jpV0 nnn => exact Laws.TableRow.jpV0 nnn
  | rnd x nn => exact Laws.TableRow.rnd x nn
  | drw x y n => exact Laws.TableRow.drw x y n
  | skp x => exact Laws.TableRow.skp x
  | sknp x => exact Laws.TableRow.sknp x
  | ldVxDt x => exact Laws.TableRow.ldVxDt x
  | ldVxK x => exact Laws.TableRow.ldVxK x
  | ldDtVx x => exact Laws.TableRow.ldDtVx x
  | ldStVx x => exact Laws.TableRow.ldStVx x
  | ldFVx x => exact Laws.TableRow.ldFVx x
  | ldBVx x => exact Laws.TableRow.ldBVx x
  | ldMemVx x => exact Laws.TableRow.ldMemVx x
  | ldVxMem x => exact Laws.TableRow.ldVxMem x
  | addIVx x => exact Laws.TableRow.addIVx x

/-- A word matches a row exactly when it decodes to an instruction of that row (R50). -/
theorem matches_iff_decodeWord {r : OpcodeRow} (hr : r ∈ opcodeTable) :
    w &&& r.mask = r.matchBits ↔ ∃ i, decodeWord w = some i ∧ i.mnemonic = r.mnemonic := by
  constructor
  · intro h
    obtain ⟨i, hm, rfl⟩ := encode_of_matches w r hr h
    exact ⟨i, decodeWord_encode i, hm⟩
  · rintro ⟨i, hd, hm⟩
    obtain ⟨q, hq, hqm, hbits⟩ := encode_matches i
    rwa [encode_of_decodeWord hd, row_eq_of_mnemonic hq hr (hqm.trans hm)] at hbits

/-- Settles O4: a word that matched two rows would decode to instructions of both, so the rows would bear one mnemonic. -/
theorem opcodeMapDecidesEveryWord : Obligations.OpcodeMapDecidesEveryWord := by
  refine ⟨rfl, fun w => ?_, fun w r hr => matches_iff_decodeWord hr, fun w i hd => ?_⟩
  · refine (List.pairwise_map.1 opcodeTable_mnemonics_nodup).imp_of_mem fun hr hq hne ⟨hmr, hmq⟩ => hne ?_
    obtain ⟨i, hi, hir⟩ := (matches_iff_decodeWord hr).1 hmr
    obtain ⟨j, hj, hjq⟩ := (matches_iff_decodeWord hq).1 hmq
    rw [← hir, ← hjq, Option.some.inj (hi.symm.trans hj)]
  · obtain ⟨r, hr, hm, hbits⟩ := encode_matches i
    exact ⟨r, hr, hm.symm, encode_of_decodeWord hd ▸ hbits⟩

/-! ### The illegal words (R52) -/

theorem legalWord_of_op0 (h : opOf w = 0x0) : legalWord w = (decide (w = 0x00E0) || decide (w = 0x00EE)) := by
  simp only [legalWord, ← opOf_toNat, h]
  simp [← BitVec.toNat_inj]

theorem legalWord_of_op59 (h : opOf w = 0x5 ∨ opOf w = 0x9) : legalWord w = decide (nOf w = 0x0) := by
  rcases h with h | h <;> simp [legalWord, ← opOf_toNat, h, ← nOf_toNat, ← BitVec.toNat_inj]

/-- Of the sixteen last digits, those that the table does not list. -/
theorem legalWord_of_op8 (h : opOf w = 0x8) :
    legalWord w = decide (nOf w ∈ [0x0, 0x1, 0x2, 0x3, 0x4, 0x5, 0x6, 0x7, 0xE]) := by
  have hdigits : ∀ n : Nibble, (!([8, 9, 0xA, 0xB, 0xC, 0xD, 0xF].contains n.toNat)) =
      decide (n ∈ [0x0, 0x1, 0x2, 0x3, 0x4, 0x5, 0x6, 0x7, 0xE]) := by decide
  simp only [legalWord, ← opOf_toNat, h, ← nOf_toNat]
  exact hdigits (nOf w)

theorem legalWord_of_opE (h : opOf w = 0xE) : legalWord w = decide (nnOf w ∈ [0x9E, 0xA1]) := by
  simp [legalWord, ← opOf_toNat, h, ← nnOf_toNat, ← BitVec.toNat_inj]

theorem legalWord_of_opF (h : opOf w = 0xF) :
    legalWord w = decide (nnOf w ∈ [0x07, 0x0A, 0x15, 0x18, 0x1E, 0x29, 0x33, 0x55, 0x65]) := by
  simp [legalWord, ← opOf_toNat, h, ← nnOf_toNat, ← BitVec.toNat_inj]

/-- Every word of these families is an instruction. -/
theorem legalWord_of_free (h : opOf w ∈ [0x1, 0x2, 0x3, 0x4, 0x6, 0x7, 0xA, 0xB, 0xC, 0xD]) : legalWord w = true := by
  simp only [List.mem_cons, List.not_mem_nil, or_false] at h
  rcases h with h | h | h | h | h | h | h | h | h | h <;> simp [legalWord, ← opOf_toNat, h]

/-- The decoder refuses the illegal words: family by family, the digits that it tests for are those of the legal words.
Case `h_k` is that of the words whose first digit is `k - 1`. -/
theorem decodeWord_eq_none_iff : decodeWord w = none ↔ legalWord w = false := by
  unfold decodeWord
  split
  case h_1 hop =>
    rw [legalWord_of_op0 hop]
    split
    next hw => simp [hw]
    next hw => simp [hw]
  case h_6 hop | h_10 hop => simp [legalWord_of_op59, hop]
  case h_9 hop =>
    rw [legalWord_of_op8 hop]
    split
    case h_10 =>
      refine iff_of_true rfl (decide_eq_false ?_)
      simp only [List.mem_cons, List.not_mem_nil, or_false, not_or]
      and_intros <;> assumption
    all_goals simp [*]
  case h_15 hop =>
    rw [legalWord_of_opE hop]
    split
    case h_3 =>
      refine iff_of_true rfl (decide_eq_false ?_)
      simp only [List.mem_cons, List.not_mem_nil, or_false, not_or]
      and_intros <;> assumption
    all_goals simp [*]
  case h_16 =>
    rw [legalWord_of_opF (by apply nibble_eq_F <;> assumption)]
    split
    case h_10 =>
      refine iff_of_true rfl (decide_eq_false ?_)
      simp only [List.mem_cons, List.not_mem_nil, or_false, not_or]
      and_intros <;> assumption
    all_goals simp [*]
  all_goals next hop => simp [legalWord_of_free, hop]

/-- Settles O5, family by family. -/
theorem illegalWordsAreExactlyTheListed : Obligations.IllegalWordsAreExactlyTheListed :=
  fun _ => decodeWord_eq_none_iff

end Sys2Proof
end

