-- ==== Sys2Proof/Proofs/ProgramCounter.lean ====
section
/-! `pc` after every instruction, after an error and in Halted (30_encoding.md R56). -/

namespace Sys2Proof.Machine

variable {s t : State} {i : Instr}

/-! ### Operations -/

@[simp] theorem State.storeBytes_pc (s : State) (ws : List (Nat × Byte)) : (s.storeBytes ws).pc = s.pc := by
  obtain ⟨m, hm⟩ := s.storeBytes_rest ws
  rw [hm]

@[simp] theorem State.storeBytes_status (s : State) (ws : List (Nat × Byte)) : (s.storeBytes ws).status = s.status := by
  obtain ⟨m, hm⟩ := s.storeBytes_rest ws
  rw [hm]

@[simp] theorem State.loadRegs_pc (s : State) (k : Nat) (as : List Nat) : (s.loadRegs k as).pc = s.pc := by
  obtain ⟨v, hv⟩ := s.loadRegs_rest as k
  rw [hv]

@[simp] theorem State.loadRegs_status (s : State) (k : Nat) (as : List Nat) : (s.loadRegs k as).status = s.status := by
  obtain ⟨v, hv⟩ := s.loadRegs_rest as k
  rw [hv]

/-- Taking a key goes on when one is pressed, and waits while none is (R89). -/
theorem State.takeKey_pc (s : State) (draw : Nat) (x : Nibble) :
    ((∃ k, s.keyPressed k = true) → (s.takeKey draw x).pc = s.pc + 2) ∧
      ((∀ k, s.keyPressed k = false) → (s.takeKey draw x).pc = s.pc) := by
  constructor
  · rintro ⟨k, hk⟩
    obtain ⟨j, hj⟩ := pickKey_isSome (d := draw) (List.ne_nil_of_mem ((s.mem_pressedKeys k).2 hk))
    rw [State.takeKey, hj]
    rfl
  · intro hnone
    unfold State.takeKey
    split
    next => rfl
    next k hk =>
      have hpressed : s.keyPressed k = true := (s.mem_pressedKeys k).1 (mem_of_pickKey hk)
      rw [hnone k] at hpressed
      cases hpressed

/-! ### Instructions that raise nothing -/

/-- A checked instruction that leaves the block running found its checks passed. -/
theorem State.checked_of_running {α : Type} {r : Except Cause α} {k : α → State} (h : s.checked i r k = .next t)
    (ht : t.status = .running) : ∃ a, r = .ok a ∧ t = k a := by
  rcases State.checked_next_iff.1 h with hok | ⟨e, -, rfl⟩
  · exact hok
  · rw [State.raise_status] at ht; cases ht

theorem execLdVxK_pc {x : Nibble} (h : execLdVxK x s = .next t) : PcAfter s t (.ldVxK x) := by
  unfold execLdVxK at h
  split at h
  next => cases h; exact s.takeKey_pc 0 x
  next => cases h; exact s.takeKey_pc _ x

/-- An instruction that raises nothing leaves `pc` where the table of R56 says. Those with checks passed them; and every other
one but the jumps, the skips and `Fx0A` goes on at `pc + 2`. -/
theorem exec_pc (h : exec i s = .next t) (ht : t.status = .running) : PcAfter s t i := by
  cases i with
  | jp nnn => cases h; exact addrOperand_toNat nnn
  | jpV0 nnn =>
    cases h
    have := (s.reg 0).isLt
    have := nnn.isLt
    rw [PcAfter, State.setPc_pc, BitVec.toNat_add, byteOperand_toNat, addrOperand_toNat]
    omega
  | call nnn =>
    obtain ⟨k, -, rfl⟩ := State.checked_of_running h ht
    exact addrOperand_toNat nnn
  | ret =>
    obtain ⟨p, hp, rfl⟩ := State.checked_of_running h ht
    rw [PcAfter, popped_ok_iff.1 hp]
    exact List.getLast?_concat
  | seByte x nn | sneByte x nn | seReg x y | sneReg x y =>
    cases h
    simp [PcAfter]
  | skp x =>
    obtain ⟨k, hk, rfl⟩ := State.checked_of_running h ht
    obtain ⟨-, rfl⟩ := keyIndex_ok_iff.1 hk
    exact s.skipIf_pc _
  | sknp x =>
    obtain ⟨k, hk, rfl⟩ := State.checked_of_running h ht
    obtain ⟨-, rfl⟩ := keyIndex_ok_iff.1 hk
    cases hkey : s.keyPressed ((s.reg x).setWidth 4) <;> simp [PcAfter, hkey]
  | ldVxK x => exact execLdVxK_pc h
  | drw x y n =>
    obtain ⟨as, -, rfl⟩ := State.checked_of_running h ht
    rfl
  | ldBVx x | ldMemVx x =>
    obtain ⟨as, -, rfl⟩ := State.checked_of_running h ht
    exact congrArg (· + 2) (s.storeBytes_pc _)
  | ldVxMem x =>
    obtain ⟨as, -, rfl⟩ := State.checked_of_running h ht
    exact congrArg (· + 2) (s.loadRegs_pc 0 as)
  | _ => cases h; rfl

/-! ### Errors -/

/-- A checked instruction whose continuation keeps the status changes the status only where it raises an error, which keeps
`pc` (R102). -/
theorem State.checked_pc_of_status_ne {α : Type} {r : Except Cause α} {k : α → State} (h : s.checked i r k = .next t)
    (hk : ∀ a, (k a).status = s.status) (hne : t.status ≠ s.status) : t.pc = s.pc := by
  rcases State.checked_next_iff.1 h with ⟨a, -, rfl⟩ | ⟨e, -, rfl⟩
  · exact absurd (hk a) hne
  · exact s.raise_pc _ e

/-- An instruction that changes the status raised an error, and leaves `pc` as it was. -/
theorem exec_pc_of_status_ne (h : exec i s = .next t) (hne : t.status ≠ s.status) : t.pc = s.pc := by
  by_cases hmay : .status ∈ partsWritten i
  case neg => exact absurd (everyInstructionWritesOnlyItsParts i s t h .status hmay) hne
  cases i with
  | ret => exact State.checked_pc_of_status_ne h (fun _ => rfl) hne
  | call nnn => exact State.checked_pc_of_status_ne h (fun _ => rfl) hne
  | drw x y n => exact State.checked_pc_of_status_ne h (fun _ => rfl) hne
  | skp x | sknp x => exact State.checked_pc_of_status_ne h (fun _ => rfl) hne
  | ldBVx x | ldMemVx x => exact State.checked_pc_of_status_ne h (fun _ => s.storeBytes_status _) hne
  | ldVxMem x => exact State.checked_pc_of_status_ne h (fun _ => s.loadRegs_status 0 _) hne
  | _ => simp [partsWritten] at hmay

/-- A step of the CPU that begins in Halted, or ends in it, leaves `pc` as it was: the step is absorbed, or it raised an error
in execution, in decode or in fetch. -/
theorem cpuStep_pc_of_not_running (h : cpuStep s = .next t) (hne : s.status ≠ .running ∨ t.status ≠ .running) :
    t.pc = s.pc := by
  rcases cpuStep_cases s with ⟨e, -, hc⟩ | ⟨hrun, ⟨w, i, -, -, hc⟩ | ⟨w, -, -, hc⟩ | ⟨e, -, hc⟩⟩ <;> rw [hc] at h
  · cases h; rfl
  · exact exec_pc_of_status_ne h (hrun ▸ hne.resolve_left (not_not_intro hrun))
  · cases h; exact s.raise_pc _ _
  · cases h; exact s.raise_pc none e

/-- Settles O14: `exec_pc` for the table of R56, the lemma above for errors and Halted. -/
theorem pcAfterEveryStep : Obligations.PcAfterEveryStep :=
  ⟨fun _ _ _ _ h ht => exec_pc h ht, fun _ _ => cpuStep_pc_of_not_running⟩

end Sys2Proof.Machine
end

