-- ==== Sys2Proof/Proofs/PlacedWord.lean ====
section
/-! The word at `pc` and the instruction a transition makes of it: the fetch as a number (30_encoding.md R47, 20_memory.md R28),
the step that executes what it decodes to (R55), and a word that the model's own load placed there (log 4). -/

namespace Sys2Proof.Machine

variable {s t : State} {i : Instr}

/-- Settles O7: the fetch passes its checks, and its word is the two bytes side by side. -/
theorem fetchIsBigEndianAtEveryAlignment : Obligations.FetchIsBigEndianAtEveryAlignment := by
  intro s hin hlow
  exact ⟨_, State.fetch_of_inside hin hlow, by rw [wordOfBytes_toNat, Nat.mul_comm]⟩

/-! ### A fetched instruction is what a transition executes -/

theorem State.fetch_of_checkFetch {a0 a1 : Nat} (h : checkFetch s.cfg s.pc.toNat = .ok (a0, a1)) :
    s.fetch = .ok (wordOfBytes (s.byteAt a0) (s.byteAt a1)) := by
  rw [State.fetch, h]

/-- On the CPU's turn of a running block, the transition executes the instruction that the fetched word decodes to (R55). -/
theorem step_of_fetch {w : Word} (hturn : s.cpuTurn = some t) (hrun : t.status = .running) (hf : t.fetch = .ok w)
    (hd : decodeWord w = some i) : step s = exec i t :=
  (step_of_cpuTurn hturn).trans (cpuStep_of_fetch hrun hf hd)

/-- Settles O6: the checked addresses are those the fetch reads. -/
theorem stepRunsTheDecodedInstruction : Obligations.StepRunsTheDecodedInstruction :=
  fun _ _ _ _ _ hturn hrun hcheck hdecode =>
    step_of_fetch hturn hrun (State.fetch_of_checkFetch hcheck) (decode_two_ok_iff.1 hdecode)

/-! ### A word placed where the next fetch finds it -/

/-- A state that is ready to fetch is running, leaves the turn to the CPU and keeps parameters and memory; its `pc` passes the
fetch checks, because 0x200 does under every policy. -/
theorem State.readyToFetch_spec (s : State) :
    s.readyToFetch.status = .running ∧ s.readyToFetch.agenda = [] ∧ s.readyToFetch.cfg = s.cfg ∧
      s.readyToFetch.mem = s.mem ∧ ∃ p, checkFetch s.readyToFetch.cfg s.readyToFetch.pc.toNat = .ok p := by
  unfold State.readyToFetch
  split
  next p hp => exact ⟨rfl, rfl, rfl, rfl, p, hp⟩
  next =>
    have hin : (BitVec.ofNat 16 programStart).toNat + 1 ≤ 0xFFF := by decide
    have hlow : programStart ≤ (BitVec.ofNat 16 programStart).toNat % 4096 := by decide
    exact ⟨rfl, rfl, rfl, rfl, _, checkFetch_ok_iff.2 ⟨.inl hin, .inl hlow, rfl⟩⟩

/-- Where `pc` passes the fetch checks, a word placed is stored at the two addresses that the fetch reads, and nowhere else. -/
theorem State.placeWord_of_checkFetch {a0 a1 : Nat} (h : checkFetch s.cfg s.pc.toNat = .ok (a0, a1)) (w : Word) :
    s.placeWord w = s.storeBytes [(a0, w.extractLsb' 8 8), (a1, w.extractLsb' 0 8)] := by
  rw [State.placeWord, h]
  rfl

/-- Placing a word touches nothing but memory. -/
theorem State.placeWord_rest (s : State) (w : Word) : ∃ m, s.placeWord w = { s with mem := m } := by
  unfold State.placeWord
  split
  next => exact s.storeBytes_rest _
  next => exact ⟨s.mem, rfl⟩

/-- The two bytes that a fetch reads lie at different addresses, the first inside memory. -/
theorem checkFetch_addresses {c : Config} {pc a0 a1 : Nat} (h : checkFetch c pc = .ok (a0, a1)) :
    a0 < memSize ∧ a0 ≠ a1 := by
  obtain ⟨-, -, ha⟩ := checkFetch_ok_iff.1 h
  obtain ⟨rfl, rfl⟩ := Prod.mk.inj ha
  simp only [memSize]
  omega

/-- Every byte after two stores, the first inside memory. -/
theorem State.byteAt_storeBytes_two {a0 a1 : Nat} (hwf : Memory.wf s.cfg s.mem = true) (h0 : a0 < memSize)
    (b0 b1 : Byte) (z : Nat) :
    (s.storeBytes [(a0, b0), (a1, b1)]).byteAt z = if z = a1 then b1 else if z = a0 then b0 else s.byteAt z := by
  have hwf0 : Memory.wf (s.storeByte a0 b0).cfg (s.storeByte a0 b0).mem = true := Memory.write_wf hwf h0
  rw [State.storeBytes, State.storeBytes, State.storeBytes, State.byteAt_storeByte hwf0, State.byteAt_storeByte hwf]

/-- The word placed is the word fetched. -/
theorem State.fetch_placeWord {a0 a1 : Nat} (hwf : Memory.wf s.cfg s.mem = true)
    (hcheck : checkFetch s.cfg s.pc.toNat = .ok (a0, a1)) (w : Word) : (s.placeWord w).fetch = .ok w := by
  obtain ⟨h0, hne⟩ := checkFetch_addresses hcheck
  have hfetch : (s.placeWord w).fetch = .ok (wordOfBytes ((s.placeWord w).byteAt a0) ((s.placeWord w).byteAt a1)) := by
    apply State.fetch_of_checkFetch
    obtain ⟨m, hm⟩ := s.placeWord_rest w
    rw [hm]
    exact hcheck
  rw [hfetch, State.placeWord_of_checkFetch hcheck, State.byteAt_storeBytes_two hwf h0, if_neg hne, if_pos rfl,
    State.byteAt_storeBytes_two hwf h0, if_pos rfl, wordOfBytes_bytes]

/-- The opcode table's bits of a 16-bit word stand for the word. -/
theorem tableWord_toNat (w : Word) : tableWord 16 w.toNat = w := by
  rw [tableWord, Nat.mod_eq_of_lt w.isLt, BitVec.ofNat_toNat, BitVec.setWidth_eq]

/-- Settles O54: the word placed is fetched, and an instruction's word decodes to it. -/
theorem placedWordRunsNext : Obligations.PlacedWordRunsNext := by
  intro s i hwf
  obtain ⟨hrun, hagenda, hcfg, hmem, ⟨a0, a1⟩, hcheck⟩ := s.readyToFetch_spec
  rw [State.withFetchWord, tableWord_toNat]
  have hfetch : (s.readyToFetch.placeWord (encode i)).fetch = .ok (encode i) :=
    State.fetch_placeWord (by rw [hcfg, hmem]; exact hwf) hcheck _
  obtain ⟨m, hm⟩ := s.readyToFetch.placeWord_rest (encode i)
  have hturn : (s.readyToFetch.placeWord (encode i)).cpuTurn = some (s.readyToFetch.placeWord (encode i)) := by
    rw [hm, State.cpuTurn, hagenda]
  exact step_of_fetch hturn (by rw [hm]; exact hrun) hfetch (decodeWord_encode i)

end Sys2Proof.Machine
end

