-- ==== Sys2Proof/Proofs/Display.lean ====
section
/-! The display instructions (40_display.md): the clearing of the screen, a sprite that leaves memory, what a drawn sprite
does to every pixel and to VF, and a draw that is repeated. -/

namespace Sys2Proof.Machine

variable {s t : State} {x y n : Nibble}

/-! ### Clearing the screen -/

/-- Settles O21: every pixel of the blank surface is unset, and 00E0 is a chain of updates of the listed fields. -/
theorem clearUnsetsEveryPixel : Obligations.ClearUnsetsEveryPixel :=
  ⟨by decide, fun _ => ⟨_, rfl, Surface.pixel_blank, rfl, rfl, onlyChanges_of⟩⟩

/-! ### A sprite outside memory -/

/-- A block read meets its first address outside memory, where addresses do not wrap (R31, R41). -/
theorem State.readBlock_error_of_first {m r : Nat} (hp : s.cfg.addrPolicy = .fault) (hr : r < m)
    (hout : 0xFFF < s.index.toNat + r) (hin : ∀ j, j < r → s.index.toNat + j ≤ 0xFFF) :
    s.readBlock m = .error (.addressOutOfRange (s.index.toNat + r)) :=
  (checkBlock_error_iff m _ _).2
    ⟨r, hr, checkAddr_error_iff.2 ⟨hout, hp, rfl⟩, fun j hj => ⟨_, checkAddr_ok_iff.2 ⟨.inl (hin j hj), rfl⟩⟩⟩

/-- Settles O23: the sprite's rows are a block read, whose failure is the error that halts the block. -/
theorem drawOutOfRangeHalts : Obligations.DrawOutOfRangeHalts := by
  intro x y n s r hp hr hout hin
  exact ⟨_, State.checked_error (State.readBlock_error_of_first hp hr hout hin), s.raise_onlyChanges _ _, rfl⟩

/-! ### The pixels a sprite covers -/

/-- A sprite covers a pixel exactly when a 1 bit of one of its bytes is drawn there, wrapping (R35, R59). -/
theorem State.spriteBit_iff {px py : Nat} :
    s.spriteBit x y n px py = true ↔
      ∃ r < n.toNat, ∃ c < 8, py % 32 = ((s.reg y).toNat % 32 + r) % 32 ∧
        px % 64 = ((s.reg x).toNat % 64 + c) % 64 ∧ (s.byteAt (s.blockAddr r)).getLsbD (7 - c) = true := by
  have := n.isLt
  simp only [State.spriteBit, Bool.and_eq_true, decide_eq_true_eq]
  constructor
  · rintro ⟨⟨hr, hc⟩, hb⟩
    exact ⟨_, hr, _, hc, by omega, by omega, hb⟩
  · rintro ⟨r, hr, c, hc, hy, hx, hb⟩
    have hrow : (py + 32 - (s.reg y).toNat % 32) % 32 = r := by omega
    have hcol : (px + 64 - (s.reg x).toNat % 64) % 64 = c := by omega
    rw [hrow, hcol]
    exact ⟨⟨hr, hc⟩, hb⟩

/-- The rows that `Dxyn` draws cover exactly the pixels of its sprite. -/
theorem State.rowsCover_eq_spriteBit (s : State) (x y n : Nibble) (px py : Nat) :
    rowsCover ((s.reg x).toNat % 64) ((s.reg y).toNat % 32) ((s.blockAddrs n.toNat).map s.byteAt) px py =
      s.spriteBit x y n px py := by
  rw [Bool.eq_iff_iff, rowsCover_iff, State.spriteBit_iff]
  constructor
  · rintro ⟨r, c, hr, hc, hy, hx, hb⟩
    exact ⟨r, by simpa using hr, c, hc, hy, hx, by simpa [State.blockAddrs] using hb⟩
  · rintro ⟨r, hr, c, hc, hy, hx, hb⟩
    exact ⟨r, c, by simpa using hr, hc, hy, hx, by simpa [State.blockAddrs] using hb⟩

/-- Coordinates of a sprite's pixel are taken modulo 64 and 32. -/
theorem State.spriteBit_mod (s : State) (x y n : Nibble) (px py : Nat) :
    s.spriteBit x y n (px % 64) (py % 32) = s.spriteBit x y n px py := by
  rw [Bool.eq_iff_iff, State.spriteBit_iff, State.spriteBit_iff, Nat.mod_mod, Nat.mod_mod]

/-- Coordinates of a pixel are taken modulo 64 and 32. -/
theorem State.pixel_mod (s : State) (px py : Nat) : s.pixel (px % 64) (py % 32) = s.pixel px py := by
  simp only [State.pixel, Surface.pixel, Nat.mod_mod]

/-- A sprite covers some pixel exactly when one of its bytes is not zero. -/
theorem State.exists_spriteBit_iff :
    (∃ px < 64, ∃ py < 32, s.spriteBit x y n px py = true) ↔ ∃ r < n.toNat, s.byteAt (s.blockAddr r) ≠ 0 := by
  constructor
  · rintro ⟨px, -, py, -, h⟩
    obtain ⟨r, hr, c, -, -, -, hb⟩ := State.spriteBit_iff.1 h
    exact ⟨r, hr, fun h0 => by simp [h0] at hb⟩
  · rintro ⟨r, hr, hne⟩
    obtain ⟨k, hk, hb⟩ : ∃ k < 8, (s.byteAt (s.blockAddr r)).getLsbD k = true := by
      by_contra! hall
      exact hne (BitVec.eq_of_getLsbD_eq fun k hk => by simpa using hall k hk)
    refine ⟨((s.reg x).toNat % 64 + (7 - k)) % 64, Nat.mod_lt _ (by decide),
      ((s.reg y).toNat % 32 + r) % 32, Nat.mod_lt _ (by decide), State.spriteBit_iff.2 ?_⟩
    exact ⟨r, hr, 7 - k, by omega, Nat.mod_mod _ _, Nat.mod_mod _ _, by rwa [show 7 - (7 - k) = k by omega]⟩

/-! ### A sprite that can be read -/

/-- Some pixel that the sprite covers is set: drawing it collides (R59). -/
def State.SpriteCollides (s : State) (x y n : Nibble) : Prop :=
  ∃ px < 64, ∃ py < 32, s.spriteBit x y n px py = true ∧ s.pixel px py = true

/-- `Dxyn` draws its rows wherever they can be read. -/
theorem execDrw_of_canRead (h : s.CanRead n.toNat) :
    exec (.drw x y n) s = .next (s.drawSprite x y (s.blockAddrs n.toNat)) :=
  State.checked_ok ((s.readBlock_ok_iff _ _).2 ⟨h, rfl⟩)

/-- What the rows of `Dxyn` do to the surface and whether they collide. -/
theorem State.drawRows_sprite (s : State) (x y n : Nibble) :
    let r := Surface.drawRows ((s.reg x).toNat % 64) ((s.reg y).toNat % 32) ((s.blockAddrs n.toNat).map s.byteAt) s.disp
    (∀ px py, r.1.pixel px py = (s.pixel px py ^^ s.spriteBit x y n px py)) ∧
      (r.2 = true ↔ s.SpriteCollides x y n) := by
  have hlen : ((s.blockAddrs n.toNat).map s.byteAt).length ≤ 32 := by
    rw [List.length_map, State.blockAddrs_length]; omega
  obtain ⟨hpixel, hcollide⟩ := Surface.drawRows_spec ((s.reg x).toNat % 64) _ ((s.reg y).toNat % 32) hlen s.disp
  simp only [State.rowsCover_eq_spriteBit] at hpixel hcollide
  refine ⟨hpixel, hcollide.trans ⟨?_, ?_⟩⟩
  · rintro ⟨px, py, hbit, hset⟩
    exact ⟨px % 64, Nat.mod_lt _ (by decide), py % 32, Nat.mod_lt _ (by decide),
      (s.spriteBit_mod x y n px py).trans hbit, (s.pixel_mod px py).trans hset⟩
  · rintro ⟨px, -, py, -, hbit, hset⟩
    exact ⟨px, py, hbit, hset⟩

/-- A completed draw inverts exactly the pixels that the sprite covers. -/
theorem execDrw_pixel (hr : s.CanRead n.toNat) (h : exec (.drw x y n) s = .next t) (px py : Nat) :
    t.pixel px py = (s.pixel px py ^^ s.spriteBit x y n px py) := by
  cases (execDrw_of_canRead hr).symm.trans h
  exact (s.drawRows_sprite x y n).1 px py

/-- A completed draw leaves in VF whether it collided. -/
theorem execDrw_vf (hr : s.CanRead n.toNat) (h : exec (.drw x y n) s = .next t) :
    t.reg 0xF = 1 ∧ s.SpriteCollides x y n ∨ t.reg 0xF = 0 ∧ ¬ s.SpriteCollides x y n := by
  cases (execDrw_of_canRead hr).symm.trans h
  have hvf : (s.drawSprite x y (s.blockAddrs n.toNat)).reg 0xF = flagByte _ := State.reg_setReg_same _ _ _
  rw [hvf, ← (s.drawRows_sprite x y n).2]
  cases (Surface.drawRows _ _ _ s.disp).2 <;> simp [flagByte]

theorem execDrw_vf_eq_one_iff (hr : s.CanRead n.toNat) (h : exec (.drw x y n) s = .next t) :
    t.reg 0xF = 1 ↔ s.SpriteCollides x y n := by
  rcases execDrw_vf hr h with ⟨hvf, hcollides⟩ | ⟨hvf, hnot⟩
  · exact iff_of_true hvf hcollides
  · exact iff_of_false (by rw [hvf]; decide) hnot

/-- A completed draw changes registers, the display, the count of frames and `pc` alone. -/
theorem execDrw_onlyChanges (hr : s.CanRead n.toNat) (h : exec (.drw x y n) s = .next t) :
    OnlyChanges [.v, .disp, .frames, .pc] s t := by
  cases (execDrw_of_canRead hr).symm.trans h
  exact onlyChanges_of

/-- Settles O22: a set pixel became unset exactly where the sprite covers a set pixel. -/
theorem drawInvertsTheSpritesPixels : Obligations.DrawInvertsTheSpritesPixels := by
  intro x y n s hr
  have h := execDrw_of_canRead (x := x) (y := y) hr
  refine ⟨_, h, fun px py _ _ => execDrw_pixel hr h px py, ?_, rfl, rfl,
    fun r hne => s.reg_drawSprite_other x y _ (by simpa using hne), execDrw_onlyChanges hr h⟩
  refine (execDrw_vf hr h).imp (And.imp_right ?_) (And.imp_right ?_)
  · rintro ⟨px, hpx, py, hpy, hbit, hset⟩
    exact ⟨px, hpx, py, hpy, hset, by rw [execDrw_pixel hr h, hbit, hset]; rfl⟩
  · intro hnot px hpx py hpy hset
    have hbit : s.spriteBit x y n px py = false := by
      by_contra hb
      exact hnot ⟨px, hpx, py, hpy, by simpa using hb, hset⟩
    rw [execDrw_pixel hr h, hbit, hset]
    rfl

/-! ### The same sprite drawn again -/

/-- A draw keeps `I` and the parameters, so its sprite can be read again. -/
theorem State.canRead_of_execDrw (hr : s.CanRead n.toNat) (h : exec (.drw x y n) s = .next t) : t.CanRead n.toNat := by
  intro k hk
  have hi : t.index = s.index := execDrw_onlyChanges hr h .index (by decide)
  have hc : t.cfg = s.cfg := exec_keeps_cfg h
  rw [State.InRange, hi, hc]
  exact hr k hk

/-- A draw keeps the sprite where neither of its coordinates is VF. -/
theorem State.spriteBit_of_execDrw (hr : s.CanRead n.toNat) (hx : x ≠ 0xF) (hy : y ≠ 0xF)
    (h : exec (.drw x y n) s = .next t) (px py : Nat) : t.spriteBit x y n px py = s.spriteBit x y n px py := by
  have hkept := execDrw_onlyChanges hr h
  have hi : t.index = s.index := hkept .index (by decide)
  have hm (a : Nat) : t.byteAt a = s.byteAt a := hkept .mem (by decide) a
  have hreg {r : Nibble} (hne : r ≠ 0xF) : t.reg r = s.reg r :=
    everyInstructionWritesOnlyItsRegisters _ s t h r (beq_false_of_ne hne)
  simp only [State.spriteBit, State.blockAddr, hreg hx, hreg hy, hi, hm]

/-- After a draw its sprite covers a set pixel exactly where it covered an unset one before. -/
theorem State.spriteCollides_of_execDrw (hr : s.CanRead n.toNat) (hx : x ≠ 0xF) (hy : y ≠ 0xF)
    (h : exec (.drw x y n) s = .next t) :
    t.SpriteCollides x y n ↔ ∃ px < 64, ∃ py < 32, s.spriteBit x y n px py = true ∧ s.pixel px py = false := by
  have hinverted : ∀ bit pixel : Bool, bit = true ∧ (pixel ^^ bit) = true ↔ bit = true ∧ pixel = false := by decide
  simp only [State.SpriteCollides, State.spriteBit_of_execDrw hr hx hy h, execDrw_pixel hr h, hinverted]

/-- Settles O24: the second draw inverts the same pixels again, and collides where the first set them. -/
theorem drawingTwiceRestoresTheDisplay : Obligations.DrawingTwiceRestoresTheDisplay := by
  intro x y n s t u hr hx hy hst htu
  have hrt := State.canRead_of_execDrw hr hst
  have hcollides := State.spriteCollides_of_execDrw hr hx hy hst
  refine ⟨fun px py => ?_, ?_, fun hunset => ?_⟩
  · rw [execDrw_pixel hrt htu, execDrw_pixel hr hst, State.spriteBit_of_execDrw hr hx hy hst, Bool.xor_assoc,
      Bool.xor_self, Bool.xor_false]
  · refine (execDrw_vf hrt htu).imp (And.imp_right hcollides.1) (And.imp_right fun hnot => ?_)
    simpa [hcollides] using hnot
  · rw [execDrw_vf_eq_one_iff hrt htu, hcollides, ← State.exists_spriteBit_iff (x := x) (y := y)]
    constructor
    · rintro ⟨px, hpx, py, hpy, hbit, -⟩
      exact ⟨px, hpx, py, hpy, hbit⟩
    · rintro ⟨px, hpx, py, hpy, hbit⟩
      exact ⟨px, hpx, py, hpy, hbit, hunset px hpx py hpy hbit⟩

end Sys2Proof.Machine
end

