-- ==== Sys2Proof/Proofs/ControlFlow.lean ====
section
/-! The control-flow instructions (41_control_flow.md): return, call, jumps and skips. -/

namespace Sys2Proof.Machine

variable {s : State}

/-! ### Return and call -/

/-- `00EE` pops the last entry into `pc` (R60). -/
theorem execRet_of_stack {k : List Word} {v : Word} (h : s.stack = k ++ [v]) :
    exec .ret s = .next ((s.setStack k).setPc v) :=
  State.checked_ok (popped_ok_iff (p := (v, k)).2 h)

/-- `2nnn` pushes the address behind it and jumps, wherever the stack has room (R62). -/
theorem execCall_of_room (nnn : Addr) (h : s.stack.length < s.cfg.stackDepth) :
    exec (.call nnn) s = .next ((s.setStack (s.stack ++ [s.pc + 2])).setPc (addrOperand nnn)) :=
  State.checked_ok (pushed_ok_iff.2 ⟨h, rfl⟩)

/-- Settles O25: the pop answers the last entry, or the error that halts the block. -/
theorem returnPopsOrUnderflows : Obligations.ReturnPopsOrUnderflows := by
  refine ⟨decodeWord_encode .ret, fun s k v h => ?_, fun s h => ?_⟩
  · exact ⟨_, execRet_of_stack h, rfl, rfl, onlyChanges_of⟩
  · exact ⟨_, State.checked_error (popped_error_iff.2 ⟨h, rfl⟩), s.raise_onlyChanges _ _, rfl⟩

/-- Settles O26: the push answers the longer stack, or the error that halts the block. -/
theorem callPushesOrOverflows : Obligations.CallPushesOrOverflows := by
  refine fun nnn s => ⟨decodeWord_encode (.call nnn), fun hroom => ?_, fun hfull => ?_⟩
  · exact ⟨_, execCall_of_room nnn hroom, addrOperand_toNat nnn, rfl, onlyChanges_of⟩
  · exact ⟨_, State.checked_error (pushed_error_iff.2 ⟨hfull, rfl⟩), s.raise_onlyChanges _ _, rfl⟩

/-- Settles O27: the return pops the entry that the call pushed. -/
theorem returnAfterCallContinuesBehindIt : Obligations.ReturnAfterCallContinuesBehindIt := by
  intro nnn s t hroom hcall
  cases (execCall_of_room nnn hroom).symm.trans hcall
  exact ⟨_, execRet_of_stack rfl, rfl, rfl, onlyChanges_of⟩

/-! ### Jumps -/

/-- The target of `Bnnn`, at most 0xFF + 0xFFF, is the sum as a number (R67). -/
theorem byteOperand_add_addrOperand_toNat (b : Byte) (nnn : Addr) :
    (byteOperand b + addrOperand nnn).toNat = b.toNat + nnn.toNat := by
  have := b.isLt
  have := nnn.isLt
  rw [BitVec.toNat_add, byteOperand_toNat, addrOperand_toNat]
  omega

/-- Settles O28: each jump is one update of `pc`, to its target. -/
theorem jumpsSetPcOnly : Obligations.JumpsSetPcOnly := fun nnn s =>
  ⟨decodeWord_encode (.jp nnn), decodeWord_encode (.jpV0 nnn),
    ⟨_, rfl, addrOperand_toNat nnn, onlyChanges_of⟩,
    ⟨_, rfl, byteOperand_add_addrOperand_toNat (s.reg 0) nnn, onlyChanges_of⟩⟩

/-! ### Skips -/

/-- A skip changes `pc` alone. -/
theorem State.skipIf_onlyChanges (s : State) (cond : Bool) : OnlyChanges [.pc] s (s.skipIf cond) := onlyChanges_of

/-- A skip on equal bytes adds 4 to `pc` where they are equal as numbers, and else 2 (R63, R65). -/
theorem State.skipIf_beq_toNat (s : State) (a b : Byte) :
    (s.skipIf (a == b)).pc.toNat = (s.pc.toNat + if a.toNat = b.toNat then 4 else 2) % 65536 := by
  simp only [State.skipIf_toNat, beq_iff_eq, BitVec.toNat_inj]

/-- A skip on different bytes adds 2 to `pc` where they are equal as numbers, and else 4 (R64, R66). -/
theorem State.skipIf_bne_toNat (s : State) (a b : Byte) :
    (s.skipIf (a != b)).pc.toNat = (s.pc.toNat + if a.toNat = b.toNat then 2 else 4) % 65536 := by
  simp only [State.skipIf_toNat, bne_iff_ne, ne_eq, ite_not, BitVec.toNat_inj]

/-- Settles O29: both skips compare `V[x]` with the byte. -/
theorem byteSkipsAdvanceByTwoOrFour : Obligations.ByteSkipsAdvanceByTwoOrFour := fun x nn s =>
  ⟨decodeWord_encode (.seByte x nn), decodeWord_encode (.sneByte x nn),
    ⟨_, rfl, s.skipIf_onlyChanges _, s.skipIf_beq_toNat (s.reg x) nn⟩,
    ⟨_, rfl, s.skipIf_onlyChanges _, s.skipIf_bne_toNat (s.reg x) nn⟩⟩

/-- Settles O30: both skips compare `V[x]` with `V[y]`. -/
theorem registerSkipsAdvanceByTwoOrFour : Obligations.RegisterSkipsAdvanceByTwoOrFour := fun x y s =>
  ⟨decodeWord_encode (.seReg x y), decodeWord_encode (.sneReg x y),
    ⟨_, rfl, s.skipIf_onlyChanges _, s.skipIf_beq_toNat (s.reg x) (s.reg y)⟩,
    ⟨_, rfl, s.skipIf_onlyChanges _, s.skipIf_bne_toNat (s.reg x) (s.reg y)⟩⟩

end Sys2Proof.Machine
end

