-- ==== Sys2Proof/Proofs/Alu.lean ====
section
/-! The register and ALU instructions (42_alu.md): loads and moves, bit operations, and the operations with a flag. -/

namespace Sys2Proof.Machine

variable {s t : State} {x : Nibble} {i : Instr}

/-! ### Registers and the rest of the state after a write of `V[x]`, alone or with a flag -/

/-- The move to the next instruction keeps every register. -/
theorem RegsKept.advance {rs : List Nibble} (h : RegsKept rs s t) : RegsKept rs s t.advance := h

/-- An instruction that writes `V[x]` and moves on changes nothing else. -/
theorem State.setReg_advance_frame (s : State) (x : Nibble) (b : Byte) :
    (s.setReg x b).advance.pc = s.pc + 2 ∧ RegsKept [x] s (s.setReg x b).advance ∧
      OnlyChanges [.v, .pc] s (s.setReg x b).advance :=
  ⟨rfl, (regsKept_setReg s x b).advance, onlyChanges_of⟩

/-- An instruction that writes a flag, then `V[x]`, and moves on changes nothing else. -/
theorem State.flagThenResult_advance_frame (s : State) (x : Nibble) (f b : Byte) :
    (s.flagThenResult x f b).advance.pc = s.pc + 2 ∧ RegsKept [x, 0xF] s (s.flagThenResult x f b).advance ∧
      OnlyChanges [.v, .pc] s (s.flagThenResult x f b).advance :=
  ⟨rfl, (regsKept_flagThenResult s x f b).advance, onlyChanges_of⟩

/-- An instruction that writes `V[x]`, then a flag, and moves on changes nothing else. -/
theorem State.resultThenFlag_advance_frame (s : State) (x : Nibble) (b f : Byte) :
    (s.resultThenFlag x b f).advance.pc = s.pc + 2 ∧ RegsKept [x, 0xF] s (s.resultThenFlag x b f).advance ∧
      OnlyChanges [.v, .pc] s (s.resultThenFlag x b f).advance :=
  ⟨rfl, (regsKept_resultThenFlag s x b f).advance, onlyChanges_of⟩

/-- The result is written last: `V[x]` holds it also for `x` = 0xF (D5). -/
theorem State.reg_flagThenResult_dest (s : State) (x : Nibble) (f b : Byte) : (s.flagThenResult x f b).reg x = b :=
  (s.setReg vf f).reg_setReg_same x b

theorem State.reg_flagThenResult_vf (s : State) (f b : Byte) (hx : x ≠ 0xF) : (s.flagThenResult x f b).reg 0xF = f := by
  rw [State.reg_flagThenResult, if_neg hx.symm, if_pos rfl]

theorem State.reg_resultThenFlag_dest (s : State) (b f : Byte) (hx : x ≠ 0xF) : (s.resultThenFlag x b f).reg x = b := by
  rw [State.reg_resultThenFlag, if_neg hx, if_pos rfl]

/-- The flag is written last: VF holds it also for `x` = 0xF (D5). -/
theorem State.reg_resultThenFlag_vf (s : State) (x : Nibble) (b f : Byte) : (s.resultThenFlag x b f).reg 0xF = f :=
  (s.setReg x b).reg_setReg_same vf f

/-! ### Results and flags as numbers (R68) -/

theorem flagByte_decide (p : Prop) [Decidable p] : flagByte (decide p) = if p then 1 else 0 := by
  simp only [flagByte, decide_eq_true_eq]

/-- A difference of bytes is the difference of integers, reduced modulo 256. -/
theorem byte_sub_toNat (a b : Byte) : ((a - b).toNat : Int) = (a.toNat - b.toNat : Int) % 256 := by
  have := a.isLt
  have := b.isLt
  rw [BitVec.toNat_sub]
  omega

theorem byte_ushiftRight_one_toNat (b : Byte) : (b >>> 1).toNat = b.toNat / 2 := by
  rw [BitVec.toNat_ushiftRight, Nat.shiftRight_one]

theorem byte_shiftLeft_one_toNat (b : Byte) : (b <<< 1).toNat = b.toNat * 2 % 256 := by
  rw [BitVec.toNat_shiftLeft, Nat.shiftLeft_eq]

/-! ### Loads, moves and bit operations -/

/-- Settles O31: each instruction is one write of `V[x]`. -/
theorem loadsMovesAndByteSums : Obligations.LoadsMovesAndByteSums := fun x y nn s =>
  ⟨decodeWord_encode (.ldByte x nn), decodeWord_encode (.addByte x nn), decodeWord_encode (.ldReg x y),
    ⟨_, rfl, s.reg_setReg_same x nn, s.setReg_advance_frame x nn⟩,
    ⟨_, rfl, (congrArg BitVec.toNat (s.reg_setReg_same x _)).trans (BitVec.toNat_add _ _), s.setReg_advance_frame x _⟩,
    ⟨_, rfl, s.reg_setReg_same x (s.reg y), s.setReg_advance_frame x (s.reg y)⟩⟩

/-- An instruction that writes one byte to `V[x]` leaves that byte's bits there, and nothing else changes. -/
theorem exec_bits_of_setReg {b : Byte} {bit : Nat → Bool} (h : exec i s = .next (s.setReg x b).advance)
    (hb : ∀ j, b.getLsbD j = bit j) :
    ∃ t, exec i s = .next t ∧ t.pc = s.pc + 2 ∧ RegsKept [x] s t ∧ OnlyChanges [.v, .pc] s t ∧
      ∀ j, j < 8 → (t.reg x).getLsbD j = bit j := by
  obtain ⟨hpc, hregs, hparts⟩ := s.setReg_advance_frame x b
  refine ⟨_, h, hpc, hregs, hparts, fun j _ => ?_⟩
  rw [State.advance_reg, State.reg_setReg_same, hb]

/-- Settles O32: each instruction writes to `V[x]` the byte of its operation, whose bits the library gives. -/
theorem logicalOperationsWorkBitByBit : Obligations.LogicalOperationsWorkBitByBit := fun x y _ =>
  ⟨decodeWord_encode (.orReg x y), decodeWord_encode (.andReg x y), decodeWord_encode (.xorReg x y),
    exec_bits_of_setReg rfl fun _ => BitVec.getLsbD_or,
    exec_bits_of_setReg rfl fun _ => BitVec.getLsbD_and,
    exec_bits_of_setReg rfl fun _ => BitVec.getLsbD_xor⟩

/-- Settles O36: the free byte under the mask is written to `V[x]`, and its number is used up. -/
theorem randomIsAFreeByteUnderTheMask : Obligations.RandomIsAFreeByteUnderTheMask := by
  refine fun x nn s => ⟨decodeWord_encode (.rnd x nn), _, rfl, fun j _ => ?_, rfl, rfl, ?_, onlyChanges_of⟩
  · rw [State.nextDraw_reg, State.loadRandom, State.advance_reg, State.reg_setReg_same, BitVec.getLsbD_and]
  · exact (regsKept_setReg s x _).advance

/-! ### Operations with a flag -/

/-- Settles O33: the carry is written first, then the sum. -/
theorem addSetsCarry : Obligations.AddSetsCarry := by
  refine fun x y s => ⟨decodeWord_encode (.addReg x y), _, rfl, ?_, fun hx => ?_, s.flagThenResult_advance_frame x _ _⟩
  · rw [State.advance_reg, State.reg_flagThenResult_dest, BitVec.toNat_add]
  · rw [State.advance_reg, s.reg_flagThenResult_vf _ _ hx, carryFlag, flagByte_decide]

/-- Where an instruction writes `a - b` to `V[x]` and then the NOT borrow to VF, `V[x]` holds the difference modulo 256
(unless it is VF) and VF tells whether the subtrahend is at most the minuend. -/
theorem exec_difference_of_resultThenFlag {a b : Byte}
    (h : exec i s = .next (s.resultThenFlag x (a - b) (noBorrowFlag a b)).advance) :
    ∃ t, exec i s = .next t ∧ (x ≠ 0xF → ((t.reg x).toNat : Int) = (a.toNat - b.toNat : Int) % 256) ∧
      (t.reg 0xF = if b.toNat ≤ a.toNat then 1 else 0) ∧
      t.pc = s.pc + 2 ∧ RegsKept [x, 0xF] s t ∧ OnlyChanges [.v, .pc] s t := by
  refine ⟨_, h, fun hx => ?_, ?_, s.resultThenFlag_advance_frame x _ _⟩
  · rw [State.advance_reg, s.reg_resultThenFlag_dest _ _ hx, byte_sub_toNat]
  · rw [State.advance_reg, State.reg_resultThenFlag_vf, noBorrowFlag, flagByte_decide]

/-- Settles O34: both write the difference, then its NOT borrow, with the operands exchanged. -/
theorem subtractionsSetNotBorrow : Obligations.SubtractionsSetNotBorrow := fun x y _ =>
  ⟨decodeWord_encode (.sub x y), decodeWord_encode (.subn x y),
    exec_difference_of_resultThenFlag rfl, exec_difference_of_resultThenFlag rfl⟩

/-- Where an instruction writes a flag to VF and then a result to `V[x]`, `V[x]` holds the result, and VF the flag unless it
is `V[x]`. -/
theorem exec_numbers_of_flagThenResult {f b : Byte} {flag result : Nat}
    (h : exec i s = .next (s.flagThenResult x f b).advance) (hresult : b.toNat = result) (hflag : f.toNat = flag) :
    ∃ t, exec i s = .next t ∧ (t.reg x).toNat = result ∧ (x ≠ 0xF → (t.reg 0xF).toNat = flag) ∧
      t.pc = s.pc + 2 ∧ RegsKept [x, 0xF] s t ∧ OnlyChanges [.v, .pc] s t := by
  refine ⟨_, h, ?_, fun hx => ?_, s.flagThenResult_advance_frame x f b⟩
  · rw [State.advance_reg, State.reg_flagThenResult_dest, hresult]
  · rw [State.advance_reg, s.reg_flagThenResult_vf f b hx, hflag]

/-- Settles O35: both write the bit shifted out, then the shifted byte. -/
theorem shiftsMoveOneBitIntoVf : Obligations.ShiftsMoveOneBitIntoVf := fun x y _ =>
  ⟨decodeWord_encode (.shr x y), decodeWord_encode (.shl x y),
    exec_numbers_of_flagThenResult rfl (byte_ushiftRight_one_toNat _) (lowBitFlag_toNat _),
    exec_numbers_of_flagThenResult rfl (byte_shiftLeft_one_toNat _) (highBitFlag_toNat _)⟩

end Sys2Proof.Machine
end

