-- ==== Sys2Proof/Proofs/IndexMemory.lean ====
section
/-! The index-register, load and store instructions (43_index_memory.md): the three that set `I`, the store of decimal digits,
the block store and the block load of registers, and a load from where a store went. -/

namespace Sys2Proof.Machine

variable {s t : State} {x : Nibble}

/-! ### `I` beside block accesses -/

@[simp] theorem State.storeBytes_index (s : State) (ws : List (Nat × Byte)) : (s.storeBytes ws).index = s.index := by
  obtain ⟨m, hm⟩ := s.storeBytes_rest ws
  rw [hm]

@[simp] theorem State.loadRegs_index (s : State) (k : Nat) (as : List Nat) : (s.loadRegs k as).index = s.index := by
  obtain ⟨v, hv⟩ := s.loadRegs_rest as k
  rw [hv]

/-- The move of `I` behind a block reads nothing but `I`. -/
theorem State.bumpIndex_index_congr (x : Nibble) (h : t.index = s.index) :
    (t.bumpIndex x).index = (s.bumpIndex x).index := by
  simp only [State.bumpIndex, State.setIndex_index, h]

/-! ### Instructions that set `I` -/

/-- An instruction that sets `I` and moves on changes nothing else. -/
theorem State.setIndex_advance_frame (s : State) (a : Word) :
    (s.setIndex a).advance.pc = s.pc + 2 ∧ OnlyChanges [.index, .pc] s (s.setIndex a).advance :=
  ⟨rfl, onlyChanges_of⟩

/-- A sum of `I` and a byte is the sum of numbers, modulo 2^16 (R82). -/
theorem word_add_byteOperand_toNat (a : Word) (b : Byte) :
    (a + byteOperand b).toNat = (a.toNat + b.toNat) % 65536 := by
  rw [BitVec.toNat_add, byteOperand_toNat]

/-- Settles O37: each instruction is one update of `I`, with its operand as a number. -/
theorem indexIsSetUnchecked : Obligations.IndexIsSetUnchecked := fun nnn x s =>
  ⟨decodeWord_encode (.ldI nnn), decodeWord_encode (.addIVx x), decodeWord_encode (.ldFVx x),
    ⟨_, rfl, addrOperand_toNat nnn, s.setIndex_advance_frame _⟩,
    ⟨_, rfl, word_add_byteOperand_toNat s.index (s.reg x), s.setIndex_advance_frame _⟩,
    ⟨_, rfl, fontAddress_toNat (s.reg x), s.setIndex_advance_frame _⟩⟩

/-! ### The three decimal digits -/

@[simp] theorem bcdDigits_length (b : Byte) : (bcdDigits b).length = 3 := rfl

/-- No digit is lost as a byte: the hundreds, tens and ones digits as numbers (R84). -/
theorem bcdDigits_toNat (b : Byte) :
    (bcdDigits b)[0].toNat = b.toNat / 100 ∧ (bcdDigits b)[1].toNat = b.toNat / 10 % 10 ∧
      (bcdDigits b)[2].toNat = b.toNat % 10 := by
  have := b.isLt
  simp only [bcdDigits, List.getElem_cons_zero, List.getElem_cons_succ, BitVec.toNat_ofNat]
  omega

/-- `Fx33` completes exactly as R84 says wherever its three bytes may be written. -/
theorem execLdBVx_of_canWrite (hw : s.CanWrite 3) :
    exec (.ldBVx x) s = .next (s.storeBytes ((s.blockAddrs 3).zip (bcdDigits (s.reg x)))).advance :=
  State.checked_ok ((s.writeBlock_ok_iff _ _).2 ⟨hw, rfl⟩)

/-- A completed `Fx33` leaves digit `k` at `I + k`. -/
theorem execLdBVx_byteAt (hwf : Memory.wf s.cfg s.mem = true) (hw : s.CanWrite 3) (h : exec (.ldBVx x) s = .next t)
    {k : Nat} (hk : k < 3) : t.byteAt (s.blockAddr k) = (bcdDigits (s.reg x))[k] := by
  cases (execLdBVx_of_canWrite hw).symm.trans h
  exact State.byteAt_storeBlock_on hwf (by decide) (bcdDigits_length _) hk

/-- Settles O39: the digits stand where they were stored, and the block store keeps every other byte. -/
theorem bcdStoresThreeDigits : Obligations.BcdStoresThreeDigits := by
  intro x s hwf hw
  have h := execLdBVx_of_canWrite (x := x) hw
  have hbyte {k : Nat} (hk : k < 3) := congrArg BitVec.toNat (execLdBVx_byteAt hwf hw h hk)
  obtain ⟨hhundreds, htens, hones⟩ := bcdDigits_toNat (s.reg x)
  refine ⟨(s.writeBlock_ok_iff _ _).2 ⟨hw, rfl⟩, _, h, ?_, ?_, ?_, ?_, ?_, ?_⟩
  · exact (hbyte (by decide)).trans hhundreds
  · exact (hbyte (by decide)).trans htens
  · exact (hbyte (by decide)).trans hones
  · exact State.byteAt_storeBlock_off hwf (bcdDigits_length _)
  · exact congrArg (· + 2) (s.storeBytes_pc _)
  · exact s.storeBytes_onlyChanges _ State.advance fun _ => onlyChanges_of

/-! ### The block store -/

/-- A completed `Fx55` keeps every byte outside the block. -/
theorem execLdMemVx_bytesKept (hwf : Memory.wf s.cfg s.mem = true) (hw : s.CanWrite (x.toNat + 1))
    (h : exec (.ldMemVx x) s = .next t) : BytesKept (s.blockAddrs (x.toNat + 1)) s t := by
  cases (execLdMemVx_of_canWrite hw).symm.trans h
  exact State.byteAt_storeBlock_off hwf (s.regsUpTo_length x)

/-- A completed `Fx55` moves `I` behind the block (R85). -/
theorem execLdMemVx_index (hw : s.CanWrite (x.toNat + 1)) (h : exec (.ldMemVx x) s = .next t) :
    t.index = (s.bumpIndex x).index := by
  cases (execLdMemVx_of_canWrite hw).symm.trans h
  exact State.bumpIndex_index_congr x (s.storeBytes_index _)

/-- Settles O40: the clauses are the lemmas about a completed `Fx55`. -/
theorem storeWritesTheRegisterBlock : Obligations.StoreWritesTheRegisterBlock := by
  intro x s hwf hw
  have h := execLdMemVx_of_canWrite hw
  exact ⟨(s.writeBlock_ok_iff _ _).2 ⟨hw, rfl⟩, _, h, fun r hr => execLdMemVx_byteAt hwf hw h hr,
    execLdMemVx_bytesKept hwf hw h, (congrArg BitVec.toNat (execLdMemVx_index hw h)).trans (s.bumpIndex_toNat x),
    execLdMemVx_pc hw h, execLdMemVx_onlyChanges hw h⟩

/-! ### The block load -/

/-- `Fx65` completes exactly as R86 says wherever the block may be read. -/
theorem execLdVxMem_of_canRead (hr : s.CanRead (x.toNat + 1)) :
    exec (.ldVxMem x) s = .next ((s.loadRegs 0 (s.blockAddrs (x.toNat + 1))).bumpIndex x).advance :=
  State.checked_ok ((s.readBlock_ok_iff _ _).2 ⟨hr, rfl⟩)

/-- A completed `Fx65` leaves the byte at `I + r` in `V[r]`, for each register it loads, and keeps the others. -/
theorem execLdVxMem_reg (hr : s.CanRead (x.toNat + 1)) (h : exec (.ldVxMem x) s = .next t) (r : Nibble) :
    t.reg r = if r.toNat ≤ x.toNat then s.byteAt (s.blockAddr r.toNat) else s.reg r := by
  cases (execLdVxMem_of_canRead hr).symm.trans h
  exact s.reg_loadBlock x r

/-- A completed `Fx65` moves `I` behind the block (R86). -/
theorem execLdVxMem_index (hr : s.CanRead (x.toNat + 1)) (h : exec (.ldVxMem x) s = .next t) :
    t.index = (s.bumpIndex x).index := by
  cases (execLdVxMem_of_canRead hr).symm.trans h
  exact State.bumpIndex_index_congr x (s.loadRegs_index 0 _)

/-- Settles O41: the block load gives every register, and moves `I` as the block store does. -/
theorem loadReadsTheRegisterBlock : Obligations.LoadReadsTheRegisterBlock := by
  intro x s hr
  have h := execLdVxMem_of_canRead hr
  refine ⟨_, h, fun r hle => ?_, fun r hlt => ?_, ?_, ?_, ?_⟩
  · rw [execLdVxMem_reg hr h, if_pos hle]
  · rw [execLdVxMem_reg hr h, if_neg (not_le.2 hlt)]
  · rw [execLdVxMem_index hr h, State.bumpIndex_toNat]
  · exact congrArg (· + 2) (s.loadRegs_pc 0 _)
  · exact s.loadRegs_onlyChanges _ 0 (fun u => (u.bumpIndex x).advance) fun _ => onlyChanges_of

/-- Settles O44: the registers are loaded by a block read, whose failure is the error that halts the block. -/
theorem loadOutOfRangeHalts : Obligations.LoadOutOfRangeHalts := by
  intro x s k hp hk hout hin
  exact ⟨_, State.checked_error (State.readBlock_error_of_first hp (Nat.lt_succ_of_le hk) hout hin),
    s.raise_onlyChanges _ _, rfl⟩

/-! ### A load from where a store went -/

/-- A block that may be written may be read wherever `I` and the parameters are the same. -/
theorem State.CanWrite.canRead_of_eq {n : Nat} (hw : s.CanWrite n) (hindex : t.index = s.index) (hcfg : t.cfg = s.cfg) :
    t.CanRead n := by
  intro k hk
  rw [State.InRange, hindex, hcfg]
  exact (hw k hk).1

/-- Settles O42: with `I` set back, the load's block is the one in which the store left the registers, and both move `I`
from the same value. -/
theorem loadAfterStoreRestoresRegisters : Obligations.LoadAfterStoreRestoresRegisters := by
  intro x s t u hwf hw hstore hindex hkept
  have hcfg : u.cfg = s.cfg := (hkept .cfg (by decide)).trans (exec_keeps_cfg hstore)
  have hmem (a : Nat) : u.byteAt a = t.byteAt a := hkept .mem (by decide) a
  have hr : u.CanRead (x.toNat + 1) := hw.canRead_of_eq hindex hcfg
  have hload := execLdVxMem_of_canRead hr
  refine ⟨_, hload, fun r hle => ?_, ?_⟩
  · rw [execLdVxMem_reg hr hload, if_pos hle, hmem, State.blockAddr, hindex]
    exact execLdMemVx_byteAt hwf hw hstore hle
  · rw [execLdVxMem_index hr hload, execLdMemVx_index hw hstore, State.bumpIndex_index_congr x hindex]

end Sys2Proof.Machine
end

