-- ==== Sys2Proof/Proofs/Input.lean ====
section
/-! The input-pad instructions (44_input.md): the skips on a key's level, and the wait for a key. -/

namespace Sys2Proof.Machine

variable {s : State} {x : Nibble}

/-! ### The skips -/

/-- `Ex9E` skips where the key numbered by the low nibble of `V[x]` is pressed, wherever `KeyIndex` answers (R38, R87). -/
theorem execSkp_of_keyIndex (h : (s.reg x).toNat ≤ 0xF ∨ s.cfg.keyPolicy = .lowNibble) :
    exec (.skp x) s = .next (s.skipIf (s.keyPressed ((s.reg x).setWidth 4))) :=
  State.checked_ok (keyIndex_ok_iff.2 ⟨h, rfl⟩)

/-- `ExA1` skips where the key numbered by the low nibble of `V[x]` is not pressed, wherever `KeyIndex` answers (R38, R88). -/
theorem execSknp_of_keyIndex (h : (s.reg x).toNat ≤ 0xF ∨ s.cfg.keyPolicy = .lowNibble) :
    exec (.sknp x) s = .next (s.skipIf (!s.keyPressed ((s.reg x).setWidth 4))) :=
  State.checked_ok (keyIndex_ok_iff.2 ⟨h, rfl⟩)

/-- A skip on a condition that fails adds 2 to `pc` where it holds, and else 4. -/
theorem State.skipIf_not_toNat (s : State) (cond : Bool) :
    (s.skipIf (!cond)).pc.toNat = (s.pc.toNat + if cond then 2 else 4) % 65536 := by
  rw [State.skipIf_toNat]
  cases cond <;> rfl

/-- Settles O46: both skips test the level of the key that `KeyIndex` answers, the low nibble of `V[x]`. -/
theorem keySkipsTestTheLevel : Obligations.KeySkipsTestTheLevel := fun x s h =>
  ⟨decodeWord_encode (.skp x), decodeWord_encode (.sknp x), (s.reg x).setWidth 4, BitVec.toNat_setWidth 4 (s.reg x),
    ⟨_, execSkp_of_keyIndex h, s.skipIf_onlyChanges _, s.skipIf_toNat _⟩,
    ⟨_, execSknp_of_keyIndex h, s.skipIf_onlyChanges _, s.skipIf_not_toNat _⟩⟩

/-! ### The wait for a key -/

theorem State.pressedKeys_eq_nil (h : ∀ k, s.keyPressed k = false) : s.pressedKeys = [] :=
  List.filter_eq_nil_iff.2 fun k _ => by simp [h k]

/-- With no key pressed `Fx0A` answers the very same state, and no free value is used (R89). -/
theorem execLdVxK_of_none (h : ∀ k, s.keyPressed k = false) : exec (.ldVxK x) s = .next s := by
  have hnil : s.pressedKeys = [] := State.pressedKeys_eq_nil h
  have htake : s.takeKey 0 x = s := by rw [State.takeKey, hnil]; rfl
  calc exec (.ldVxK x) s = .next (s.takeKey 0 x) := if_pos (by simp [hnil])
    _ = .next s := by rw [htake]

/-- Taking a key while one is pressed writes the number of a pressed key to `V[x]`, whatever the choice (R38, R89). -/
theorem State.reg_takeKey_of_pressed (draw : Nat) (x : Nibble) (h : ∃ k, s.keyPressed k = true) :
    ∃ k, s.keyPressed k = true ∧ (s.takeKey draw x).reg x = k.setWidth 8 := by
  obtain ⟨j, hj⟩ := h
  obtain ⟨k, hk⟩ := pickKey_isSome (d := draw) (List.ne_nil_of_mem ((s.mem_pressedKeys j).2 hj))
  refine ⟨k, (s.mem_pressedKeys k).1 (mem_of_pickKey hk), ?_⟩
  rw [State.takeKey, hk]
  exact s.reg_setReg_same x _

/-- With keys pressed `Fx0A` completes with the number of one of them in `V[x]`: a single key without a choice, one of
several by the next free value (R89, log 2). -/
theorem execLdVxK_of_pressed (x : Nibble) (h : ∃ k, s.keyPressed k = true) :
    ∃ t k, exec (.ldVxK x) s = .next t ∧ s.keyPressed k = true ∧ t.reg x = k.setWidth 8 := by
  by_cases hone : s.pressedKeys.length ≤ 1
  · obtain ⟨k, hk, hreg⟩ := State.reg_takeKey_of_pressed 0 x h
    exact ⟨s.takeKey 0 x, k, if_pos hone, hk, hreg⟩
  · obtain ⟨k, hk, hreg⟩ := State.reg_takeKey_of_pressed (Config.keyDraw s.draws) x h
    exact ⟨(s.takeKey (Config.keyDraw s.draws) x).nextDraw, k, if_neg hone, hk, hreg⟩

/-- Settles O48: the key's number fits in a byte, and the frame of `Fx0A` gives the rest. -/
theorem keyWaitTakesAPressedKey : Obligations.KeyWaitTakesAPressedKey := by
  refine fun x s => ⟨decodeWord_encode (.ldVxK x), execLdVxK_of_none, fun hpressed => ?_⟩
  obtain ⟨t, k, h, hk, hreg⟩ := execLdVxK_of_pressed x hpressed
  obtain ⟨hpc, -⟩ := execLdVxK_pc h
  refine ⟨t, k, h, hk, ?_, hpc hpressed, ?_, execLdVxK_onlyChanges h⟩
  · rw [hreg, BitVec.toNat_setWidth_of_le (by decide)]
  · exact fun r hr => execLdVxK_keeps_reg (by simpa using hr) h

end Sys2Proof.Machine
end

