-- ==== Sys2Proof/Proofs/Timers.lean ====
section
/-! The timer instructions (45_timers.md): the read of DT into `V[x]`, and the two that set a timer from `V[x]`. -/

namespace Sys2Proof.Machine

/-- An instruction that sets DT and moves on changes nothing else; ST above all is kept. -/
theorem State.setDT_advance_frame (s : State) (b : Byte) :
    (s.setDT b).advance.pc = s.pc + 2 ∧ OnlyChanges [.dt, .pc] s (s.setDT b).advance :=
  ⟨rfl, onlyChanges_of⟩

/-- An instruction that sets ST and moves on changes nothing else; DT above all is kept. -/
theorem State.setST_advance_frame (s : State) (b : Byte) :
    (s.setST b).advance.pc = s.pc + 2 ∧ OnlyChanges [.st, .pc] s (s.setST b).advance :=
  ⟨rfl, onlyChanges_of⟩

/-- Settles O49: each instruction is one unconditional update, of `V[x]`, DT or ST (R90–R92), then the move to the next
instruction. -/
theorem timersMoveToAndFromRegisters : Obligations.TimersMoveToAndFromRegisters := fun x s =>
  ⟨decodeWord_encode (.ldVxDt x), decodeWord_encode (.ldDtVx x), decodeWord_encode (.ldStVx x),
    ⟨_, rfl, s.reg_setReg_same x s.dt, s.setReg_advance_frame x s.dt⟩,
    ⟨_, rfl, s.setDT_dt (s.reg x), s.setDT_advance_frame (s.reg x)⟩,
    ⟨_, rfl, s.setST_st (s.reg x), s.setST_advance_frame (s.reg x)⟩⟩

end Sys2Proof.Machine
end

