-- ==== Sys2Proof/Proofs/Errors.lean ====
section
/-! Fatal errors (60_exceptions.md): which ones an instruction raises (R101), the record and the unchanged state of every step
that ends Halted (R93, R102), and the errors of illegal words, block stores and key numbers. -/

namespace Sys2Proof.Machine

variable {s t : State} {i : Instr}

/-! ### Errors of block accesses -/

/-- A block read that fails left memory (R31). -/
theorem State.readBlock_error {n : Nat} {c : Cause} (h : s.readBlock n = .error c) : ∃ ea, c = .addressOutOfRange ea := by
  obtain ⟨k, -, hk, -⟩ := (checkBlock_error_iff n _ c).1 h
  obtain ⟨-, -, rfl⟩ := checkAddr_error_iff.1 hk
  exact ⟨_, rfl⟩

/-- A block write that fails left memory or met the protected font (R31, R32). -/
theorem State.writeBlock_error {n : Nat} {c : Cause} (h : s.writeBlock n = .error c) :
    (∃ ea, c = .addressOutOfRange ea) ∨ ∃ a, c = .fontWrite a := by
  obtain ⟨k, -, hk, -⟩ := (checkBlock_error_iff n _ c).1 h
  obtain ⟨-, -, rfl⟩ | ⟨-, -, -, rfl⟩ := checkWrite_error_iff.1 hk
  · exact .inl ⟨_, rfl⟩
  · exact .inr ⟨_, rfl⟩

theorem State.not_inRange_iff {k : Nat} : ¬ s.InRange k ↔ 0xFFF < s.index.toNat + k ∧ s.cfg.addrPolicy = .fault := by
  rw [State.InRange, not_or, not_le]
  cases s.cfg.addrPolicy <;> simp

theorem State.not_offFont_iff {k : Nat} : ¬ s.OffFont k ↔ s.blockAddr k < 0x050 ∧ s.cfg.fontWritePolicy = .fault := by
  rw [State.OffFont, not_or, not_le]
  cases s.cfg.fontWritePolicy <;> simp

/-- A block write answers the error of the first byte that may not be written (R41). -/
theorem State.writeBlock_error_of_first {n k : Nat} {c : Cause} (hk : k < n)
    (hbefore : ∀ j, j < k → s.InRange j ∧ s.OffFont j) (h : checkWrite s.cfg (s.index.toNat + k) = .error c) :
    s.writeBlock n = .error c :=
  (checkBlock_error_iff n _ c).2
    ⟨k, hk, h, fun j hj => ⟨_, checkWrite_ok_iff.2 ⟨(hbefore j hj).1, (hbefore j hj).2, rfl⟩⟩⟩

/-! ### The errors of an instruction -/

/-- A checked instruction that changes the status entered the error that its checks met. -/
theorem State.checked_raises {α : Type} {r : Except Cause α} {k : α → State} (h : s.checked i r k = .next t)
    (hne : t.status ≠ s.status) (hk : ∀ a, (k a).status = s.status)
    (hr : ∀ c, r = .error c → (c.record s.pc (some (encode i))).kind ∈ errorsRaised i) :
    ∃ c, t = s.raise (some (encode i)) c ∧ (c.record s.pc (some (encode i))).kind ∈ errorsRaised i := by
  obtain ⟨a, -, rfl⟩ | ⟨c, hc, rfl⟩ := State.checked_next_iff.1 h
  · exact absurd (hk a) hne
  · exact ⟨c, rfl, hr c hc⟩

/-- An instruction that changes the status entered an error listed for it, with its own word (R93, R101): its checks answer
no other, and an instruction without checks keeps the status. -/
theorem exec_raises (h : exec i s = .next t) (hne : t.status ≠ s.status) :
    ∃ c, t = s.raise (some (encode i)) c ∧ (c.record s.pc (some (encode i))).kind ∈ errorsRaised i := by
  by_cases hmay : .status ∈ partsWritten i
  case neg => exact absurd (everyInstructionWritesOnlyItsParts i s t h .status hmay) hne
  cases i with
  | ret =>
    refine State.checked_raises h hne (fun _ => rfl) fun c hc => ?_
    obtain ⟨-, rfl⟩ := popped_error_iff.1 hc
    exact List.mem_singleton_self _
  | call nnn =>
    refine State.checked_raises h hne (fun _ => rfl) fun c hc => ?_
    obtain ⟨-, rfl⟩ := pushed_error_iff.1 hc
    exact List.mem_singleton_self _
  | skp x | sknp x =>
    refine State.checked_raises h hne (fun _ => rfl) fun c hc => ?_
    obtain ⟨-, -, rfl⟩ := keyIndex_error_iff.1 hc
    exact List.mem_singleton_self _
  | drw x y n =>
    refine State.checked_raises h hne (fun _ => rfl) fun c hc => ?_
    obtain ⟨ea, rfl⟩ := State.readBlock_error hc
    exact List.mem_singleton_self _
  | ldVxMem x =>
    refine State.checked_raises h hne (fun _ => s.loadRegs_status 0 _) fun c hc => ?_
    obtain ⟨ea, rfl⟩ := State.readBlock_error hc
    exact List.mem_singleton_self _
  | ldBVx x | ldMemVx x =>
    refine State.checked_raises h hne (fun _ => s.storeBytes_status _) fun c hc => ?_
    obtain ⟨ea, rfl⟩ | ⟨a, rfl⟩ := State.writeBlock_error hc
    · exact List.mem_cons_self
    · exact List.mem_cons_of_mem _ (List.mem_singleton_self _)
  | _ => simp [partsWritten] at hmay

/-- Settles O11: an instruction that halts a running block changed the status. -/
theorem eachInstructionRaisesOnlyItsOwnErrors : Obligations.EachInstructionRaisesOnlyItsOwnErrors := by
  intro i s t e hrun h he
  obtain ⟨c, rfl, hkind⟩ := exec_raises h (by rw [he, hrun]; exact nofun)
  obtain ⟨hpc, hword⟩ := s.raise_record _ c he
  cases he
  exact ⟨hkind, hword, hpc⟩

/-! ### The error of a step -/

/-- A running block that fetches an illegal word enters the error, with the word (R94). -/
theorem cpuStep_of_illegal {w : Word} (hrun : s.status = .running) (hf : s.fetch = .ok w) (hd : decodeWord w = none) :
    cpuStep s = .next (s.raise (some w) .unrecognizedOpcode) := by
  have hfd : s.fetchDecode = .error (s.raise (some w) .unrecognizedOpcode) := by
    rw [State.fetchDecode, hf]; simp only [hd]
  rw [cpuStep, hrun, hfd]

/-- Settles O9: the decoder refuses the illegal words. -/
theorem illegalWordHaltsWithItsWord : Obligations.IllegalWordHaltsWithItsWord :=
  fun _ t _ hturn hrun hf hw =>
    ⟨_, (step_of_cpuTurn hturn).trans (cpuStep_of_illegal hrun hf (decodeWord_eq_none_iff.2 hw)),
      t.raise_onlyChanges _ _, rfl⟩

/-- A step that halts a running block entered an error with the word it fetched, or with none where the fetch failed: the
error of the instruction, of the decoder or of the fetch. -/
theorem cpuStep_raises (hrun : s.status = .running) (h : cpuStep s = .next t) (hne : t.status ≠ .running) :
    ∃ c, t = s.raise s.fetch.toOption c := by
  obtain ⟨e, he, hc⟩ | ⟨-, ⟨w, i, hf, hd, hc⟩ | ⟨w, hf, -, hc⟩ | ⟨c, hf, hc⟩⟩ := cpuStep_cases s <;> rw [hc] at h
  · rw [hrun] at he; cases he
  · obtain ⟨c, rfl, -⟩ := exec_raises h (hrun ▸ hne)
    exact ⟨c, by rw [hf, encode_of_decodeWord hd]; rfl⟩
  · cases h; exact ⟨_, by rw [hf]; rfl⟩
  · cases h; exact ⟨c, by rw [hf]; rfl⟩

/-- Settles O10: error entry changes the status alone, and its record has the `pc` and the word it is given. -/
theorem errorsArePrecise : Obligations.ErrorsArePrecise := by
  intro s t u e hturn hrun h he
  obtain ⟨c, rfl⟩ := cpuStep_raises hrun ((step_of_cpuTurn hturn).symm.trans h) (by rw [he]; exact nofun)
  obtain ⟨hpc, hword⟩ := t.raise_record _ c he
  exact ⟨t.raise_onlyChanges _ c, hpc, fun w hf => by rw [hword, hf]; rfl, fun d hf => by rw [hword, hf]; rfl⟩

/-! ### Errors of single instructions -/

/-- `Fx33` and `Fx55` enter the error of their block write, three bytes long or `x + 1`. -/
theorem execStore_of_writeBlock_error {x : Nibble} {n : Nat} {c : Cause}
    (hi : i = .ldBVx x ∧ n = 3 ∨ i = .ldMemVx x ∧ n = x.toNat + 1) (h : s.writeBlock n = .error c) :
    exec i s = .next (s.raise (some (encode i)) c) := by
  obtain ⟨rfl, rfl⟩ | ⟨rfl, rfl⟩ := hi
  · exact State.checked_error h
  · exact State.checked_error h

/-- Settles O43: the error of the first bad byte is that of the block write, which either instruction enters. -/
theorem failingStoresWriteNothing : Obligations.FailingStoresWriteNothing := by
  intro x i n k s hi hk hbefore
  have hfail {c : Cause} (hc : checkWrite s.cfg (s.index.toNat + k) = .error c) :
      exec i s = .next (s.raise (some (encode i)) c) :=
    execStore_of_writeBlock_error hi (State.writeBlock_error_of_first hk hbefore hc)
  refine ⟨fun hout => ?_, fun hin hfont => ?_⟩
  · obtain ⟨hlt, hp⟩ := State.not_inRange_iff.1 hout
    exact ⟨_, hfail (checkWrite_error_iff.2 (.inl ⟨hlt, hp, rfl⟩)), s.raise_onlyChanges _ _, rfl⟩
  · obtain ⟨hlt, hp⟩ := State.not_offFont_iff.1 hfont
    exact ⟨_, hfail (checkWrite_error_iff.2 (.inr ⟨hin, hlt, hp, rfl⟩)), s.raise_onlyChanges _ _, rfl⟩

/-- Settles O47: either skip enters the error of `KeyIndex`. -/
theorem keyNumberAboveFifteenHalts : Obligations.KeyNumberAboveFifteenHalts := by
  intro x i s hi hp hv
  have hkey : keyIndex s.cfg (s.reg x) = .error (.invalidKey (s.reg x)) := keyIndex_error_iff.2 ⟨hv, hp, rfl⟩
  obtain rfl | rfl := hi
  · exact ⟨_, State.checked_error hkey, s.raise_onlyChanges _ _, rfl⟩
  · exact ⟨_, State.checked_error hkey, s.raise_onlyChanges _ _, rfl⟩

end Sys2Proof.Machine
end

