-- ==== Sys2Proof/Proofs/HostInteraction.lean ====
section
/-! The host's events (60_exceptions.md R106, R107, R113; 70_reset_and_hazards.md R117) in every state, what becomes of a
halted block (R103), and the end of a run that parks (R114). -/

namespace Sys2Proof.Machine

variable {s t : State} {rest : List HostEvent}

/-! ### Ticks and key changes -/

theorem step_of_tick (h : s.agenda = .tick :: rest) : step s = .next (s.setAgenda rest).tick := by
  rw [step, h]; rfl

theorem step_of_key {k : Nibble} {p : Bool} (h : s.agenda = .key k p :: rest) :
    step s = .next ((s.setAgenda rest).setKey k p) := by
  rw [step, h]; rfl

/-- Settles O50: a tick counts each timer down, and is a chain of updates of the listed fields. -/
theorem tickCountsBothTimersDown : Obligations.TickCountsBothTimersDown := fun s rest h =>
  ⟨_, step_of_tick h, (s.setAgenda rest).tick_dt_toNat, (s.setAgenda rest).tick_st_toNat, rfl, onlyChanges_of⟩

/-- Settles O51: a key change writes one key level. -/
theorem keyChangeSetsOneLevel : Obligations.KeyChangeSetsOneLevel := by
  intro s k p rest h
  have hkey (j : Nibble) : ((s.setAgenda rest).setKey k p).keyPressed j = if j = k then p else s.keyPressed j :=
    (s.setAgenda rest).keyPressed_setKey k j p
  exact ⟨_, step_of_key h, (hkey k).trans (if_pos rfl), fun j hj => (hkey j).trans (if_neg hj), rfl, onlyChanges_of⟩

/-! ### Resets -/

theorem step_of_reset {rom : List Byte} (h : s.agenda = .reset rom :: rest) :
    step s = (s.setAgenda rest).hostReset rom := by
  rw [step, h]; rfl

/-- A reset is refused when its image does not fit (R117). -/
theorem State.hostReset_of_too_long {rom : List Byte} (h : 3584 < rom.length) :
    s.hostReset rom = .refused (.romTooLong rom.length) := by
  simp [State.hostReset, romFits, h]

/-- After a reset the block runs (R23). -/
@[simp] theorem State.resetWith_status (s : State) (rom : List Byte) : (s.resetWith rom).status = .running := by
  obtain ⟨m, hm⟩ := s.resetWith_rest rom
  rw [hm]
  rfl

/-- Settles O13: of the transitions of `step_cases`, only a reset can be refused. -/
theorem onlyAnOversizeImageIsRefused : Obligations.OnlyAnOversizeImageIsRefused := by
  refine fun s => ⟨fun rom rest h hlong => ?_, fun hfits => ?_⟩
  · exact (step_of_reset h).trans (State.hostReset_of_too_long hlong)
  · obtain ⟨t, -, hs⟩ | ⟨rest, -, hs⟩ | ⟨k, p, rest, -, hs⟩ | ⟨rom, rest, ha, hs⟩ := step_cases s
    · rw [hs]; exact cpuStep_total t
    · exact ⟨_, hs⟩
    · exact ⟨_, hs⟩
    · exact ⟨_, hs.trans (State.hostReset_of_fits (hfits rom rest ha))⟩

/-! ### Halted (R103) -/

theorem cpuStep_of_halted {e : ErrorRecord} (h : s.status = .halted e) : cpuStep s = .next s := by
  rw [cpuStep, h]

/-- The CPU's turn changes the agenda alone (log 3). -/
theorem State.cpuTurn_onlyChanges (h : s.cpuTurn = some t) : OnlyChanges [.agenda] s t :=
  State.cpuTurn_rest h ▸ onlyChanges_of

/-- On the CPU's turn of a halted block, the transition answers the state that the turn is in. -/
theorem step_of_halted {e : ErrorRecord} (hturn : s.cpuTurn = some t) (h : s.status = .halted e) : step s = .next t :=
  (step_of_cpuTurn hturn).trans (cpuStep_of_halted ((State.cpuTurn_onlyChanges hturn .status (by decide)).trans h))

/-- A halted block that runs after a transition was reset: steps, ticks and key changes keep the status. -/
theorem agenda_of_halted_to_running {e : ErrorRecord} (h : s.status = .halted e) (hs : step s = .next t)
    (ht : t.status = .running) : ∃ rom rest, s.agenda = .reset rom :: rest := by
  have hne : t.status ≠ s.status := by rw [ht, h]; exact nofun
  obtain ⟨u, hu, -⟩ | ⟨rest, -, hc⟩ | ⟨k, p, rest, -, hc⟩ | ⟨rom, rest, ha, -⟩ := step_cases s
  · cases (step_of_halted hu h).symm.trans hs
    exact absurd (State.cpuTurn_onlyChanges hu .status (by decide)) hne
  · cases hc.symm.trans hs; exact absurd rfl hne
  · cases hc.symm.trans hs; exact absurd rfl hne
  · exact ⟨rom, rest, ha⟩

/-- Settles O12: ticks and key changes act as in every state (O50, O51), and the other clauses are the lemmas above. -/
theorem haltedIsLeftOnlyByReset : Obligations.HaltedIsLeftOnlyByReset := by
  intro s e h
  refine ⟨cpuStep_of_halted h, fun t hturn => ?_, fun rest ha => ?_, fun k p rest ha => ?_,
    fun rom rest ha hrom => ?_, fun t => agenda_of_halted_to_running h⟩
  · exact ⟨step_of_halted hturn h, State.cpuTurn_onlyChanges hturn⟩
  · obtain ⟨t, hs, hdt, hst, -, hkept⟩ := tickCountsBothTimersDown s rest ha
    exact ⟨t, hs, hdt, hst, hkept⟩
  · obtain ⟨t, hs, hset, hothers, -, hkept⟩ := keyChangeSetsOneLevel s k p rest ha
    exact ⟨t, hs, hset, hothers, hkept⟩
  · exact ⟨_, (step_of_reset ha).trans (State.hostReset_of_fits hrom), State.resetWith_status _ rom⟩

/-! ### Parked (R114) -/

/-- A parked block runs, and fetches a jump to its own `pc`. -/
theorem State.parked_iff :
    s.parked = true ↔ s.status = .running ∧ ∃ w, s.fetch = .ok w ∧ opOf w = 1 ∧ addrOperand (nnnOf w) = s.pc := by
  unfold State.parked State.faulted
  cases s.status with
  | halted e => simp
  | running =>
    cases s.fetch with
    | error c => simp
    | ok w => simp

/-- A parked block's step jumps to where `pc` stands already. -/
theorem cpuStep_of_parked (h : s.parked = true) : cpuStep s = .next s := by
  obtain ⟨hrun, w, hf, hop, hpc⟩ := State.parked_iff.1 h
  have hw : encode (.jp (nnnOf w)) = w := nibAddr_of_op hop
  have hd : decodeWord w = some (.jp (nnnOf w)) :=
    (congrArg decodeWord hw).symm.trans (decodeWord_encode _)
  calc cpuStep s = .next (s.setPc (addrOperand (nnnOf w))) := cpuStep_of_fetch hrun hf hd
    _ = .next s := by rw [hpc]; rfl

/-- A machine whose next state is the one it is in stays there. -/
theorem core_run_of_step_self {M : Host.Core} {u : M.State} (h : M.step u = .next u) (n : Nat) : M.run n u = .next u := by
  induction n with
  | zero => rfl
  | succ n ih => rw [Host.Core.run, h]; exact ih

/-- Settles O53: with an empty agenda every transition is the CPU's step. -/
theorem parkedStateIsFinal : Obligations.ParkedStateIsFinal := by
  intro s hparked hagenda n
  have hturn : s.cpuTurn = some s := by rw [State.cpuTurn, hagenda]
  exact core_run_of_step_self (M := core) ((step_of_cpuTurn hturn).trans (cpuStep_of_parked hparked)) n

end Sys2Proof.Machine
end
